-- ==== Sys2Proof/Word.lean ====
section
/-! DEFINITION. The addressing modes and the operand (spec/41_operand_resolution.md R90). The machine's one data type,
`WORD`, is the mathematical integers (spec/00_scope.md R5, R9; spec/42_arithmetic.md R102): Lean's `Int`, written as `Int`
everywhere. -/

namespace Sys2Proof

/-- The three addressing modes (R53): digit 0, 1 and 2. -/
inductive Mode where
  | position
  | immediate
  | relative
deriving DecidableEq, Repr

/-- An Operand: "immutable pair (raw_value, addressing_mode)" (R52, R90). -/
structure Operand where
  raw  : Int
  mode : Mode
deriving DecidableEq, Repr

end Sys2Proof
end

