-- ==== Sys2Proof/Config.lean ====
section
/-! DEFINITION. The named parameters that spec/00_scope.md R5 leaves OPEN, with the values the spec assumes, and the one
free value of the model: how long a core goes on after `cancel` is set (spec/60_exceptions.md R142). -/

namespace Sys2Proof

/-- The OPEN parameters of R5; `none` is "unbounded". A core is built with one record of them; no instruction reads or
writes it. -/
structure Config where
  /-- `WORD_BITS` (D1); a finite one is at least 1 (log entry 25) -/
  wordBits  : Option ℕ+
  /-- `ADDR_MAX` (D2) -/
  addrMax   : Option Nat
  /-- `CHAN_DEPTH` (D15); a finite one is at least 1 (log entry 25) -/
  chanDepth : Option ℕ+
deriving DecidableEq, Repr

/-- The column "Value in this spec" of R5: every rule and every vector of the spec assumes it. -/
def Config.spec : Config := ⟨none, none, none⟩

/-- FREE VALUE (log entry 6): how many further whole instructions a running core begins after `cancel` is set before it
takes the step to `Cancelled`. R142 lets it be any number and demands that it is finite. -/
opaque Config.cancelGrace : Nat → Nat

end Sys2Proof
end

