-- ==== Sys2Proof/Syntax.lean ====
section
/-! DEFINITION. The instructions: the closed variant of ten cases of spec/30_encoding.md R55, R68, one constructor per
row of spec/opcode_table.json. -/

namespace Sys2Proof

/-- The ten instructions (R68), each with its operands in parameter order. -/
inductive Instr where
  | add (p1 p2 p3 : Operand)
  | multiply (p1 p2 p3 : Operand)
  | input (p1 : Operand)
  | output (p1 : Operand)
  | jumpIfTrue (p1 p2 : Operand)
  | jumpIfFalse (p1 p2 : Operand)
  | lessThan (p1 p2 p3 : Operand)
  | equals (p1 p2 p3 : Operand)
  | adjustRelativeBase (p1 : Operand)
  | halt
deriving DecidableEq, Repr

/-- The operands, in parameter order (R50, R55). -/
def Instr.operands : Instr → List Operand
  | .add p1 p2 p3 => [p1, p2, p3]
  | .multiply p1 p2 p3 => [p1, p2, p3]
  | .input p1 => [p1]
  | .output p1 => [p1]
  | .jumpIfTrue p1 p2 => [p1, p2]
  | .jumpIfFalse p1 p2 => [p1, p2]
  | .lessThan p1 p2 p3 => [p1, p2, p3]
  | .equals p1 p2 p3 => [p1, p2, p3]
  | .adjustRelativeBase p1 => [p1]
  | .halt => []

/-- The destination parameter, the one marked D in R55, if the instruction has one. -/
def Instr.destination : Instr → Option Operand
  | .add _ _ p3 => some p3
  | .multiply _ _ p3 => some p3
  | .input p1 => some p1
  | .output _ => none
  | .jumpIfTrue _ _ => none
  | .jumpIfFalse _ _ => none
  | .lessThan _ _ p3 => some p3
  | .equals _ _ p3 => some p3
  | .adjustRelativeBase _ => none
  | .halt => none

/-- The "declared consumption width": arity plus one (R50). -/
def Instr.width (i : Instr) : Nat := i.operands.length + 1

end Sys2Proof
end

