-- ==== Sys2Proof/Decode.lean ====
section
/-! DEFINITION. The decoder and, after it, the encoder, both from spec/30_encoding.md R50 to R68. Decoding is total on
any list of words; a word sequence it does not accept is rejected by name. -/

namespace Sys2Proof

/-- `WORD_BITS` (R5): a finite N admits −2^(N−1) .. 2^(N−1)−1. N is at least 1, since at 0 R5's range would hold no integer
(log entry 25). -/
def Config.admitsWord (c : Config) (v : Int) : Bool :=
  match c.wordBits with
  | none => true
  | some n => decide (-(2 ^ (n : Nat) : Int) ≤ 2 * v) && decide (2 * v < (2 ^ (n : Nat) : Int))

/-- The ten values of the `opcode` field (R55). -/
inductive Opcode where
  | add | multiply | input | output | jumpIfTrue | jumpIfFalse | lessThan | equals | adjustRelativeBase | halt
deriving DecidableEq, Repr

/-- The `opcode` field's number (R55). -/
def Opcode.number : Opcode → Nat
  | .add => 1
  | .multiply => 2
  | .input => 3
  | .output => 4
  | .jumpIfTrue => 5
  | .jumpIfFalse => 6
  | .lessThan => 7
  | .equals => 8
  | .adjustRelativeBase => 9
  | .halt => 99

/-- The arity the opcode fixes (R50, R55). -/
def Opcode.arity : Opcode → Nat
  | .add => 3
  | .multiply => 3
  | .input => 1
  | .output => 1
  | .jumpIfTrue => 2
  | .jumpIfFalse => 2
  | .lessThan => 3
  | .equals => 3
  | .adjustRelativeBase => 1
  | .halt => 0

/-- The opcode of a number; the illegal values are 0 and 10 to 98 (R60). -/
def Opcode.ofNumber (n : Nat) : Option Opcode :=
  match n with
  | 1 => some .add
  | 2 => some .multiply
  | 3 => some .input
  | 4 => some .output
  | 5 => some .jumpIfTrue
  | 6 => some .jumpIfFalse
  | 7 => some .lessThan
  | 8 => some .equals
  | 9 => some .adjustRelativeBase
  | 99 => some .halt
  | _ => none

/-- The mode digit (R53). -/
def Mode.digit : Mode → Nat
  | .position => 0
  | .immediate => 1
  | .relative => 2

/-- The mode of a digit; 3 to 9 are illegal (R53). -/
def Mode.ofDigit (d : Nat) : Option Mode :=
  match d with
  | 0 => some .position
  | 1 => some .immediate
  | 2 => some .relative
  | _ => none

/-- Why a sequence of words is no instruction. -/
inductive Reject where
  /-- R60, R61: negative, or an `opcode` field that is not in the table; carries the opcode word. -/
  | invalidOpcode (w : Int)
  /-- R53, R62, R64: a mode digit, an unused digit or a higher digit is not what it must be; carries the opcode word. -/
  | invalidMode (w : Int)
  /-- The list ends before the instruction does; a fetch from memory never meets this (R32). -/
  | truncated
deriving DecidableEq, Repr

/-- The fields of an accepted opcode word (R51). The mode of a parameter the opcode lacks is `position`, digit 0 (R62). -/
structure Header where
  op : Opcode
  m1 : Mode
  m2 : Mode
  m3 : Mode
deriving DecidableEq, Repr

/-- `m_k`, decimal digit `k + 1` of the opcode word (R51). -/
def modeDigit (k n : Nat) : Nat := n / 10 ^ (k + 1) % 10

/-- The mode of parameter `k`, or `none` where R53 (a parameter the opcode has) or R62 (one it lacks) raises `InvalidMode`. -/
def modeOf (op : Opcode) (k n : Nat) : Option Mode :=
  if k ≤ op.arity then Mode.ofDigit (modeDigit k n)
  else if modeDigit k n = 0 then some .position
  else none

/-- The checks of R67 on the opcode word, in the order written there: sign, opcode, modes 1 to 3, the digits above. -/
def decodeHeader (w : Int) : Except Reject Header :=
  match w with
  | .negSucc _ => .error (.invalidOpcode w)
  | .ofNat n =>
    match Opcode.ofNumber (n % 100) with
    | none => .error (.invalidOpcode w)
    | some op =>
      match modeOf op 1 n, modeOf op 2 n, modeOf op 3 n with
      | some m1, some m2, some m3 =>
        if n / 100000 = 0 then .ok ⟨op, m1, m2, m3⟩ else .error (.invalidMode w)
      | _, _, _ => .error (.invalidMode w)

/-- The instruction of a header and its parameter words (R67, last line). Parameter word `k` is `raws[k-1]`. -/
def Header.build (h : Header) (raws : List Int) : Instr :=
  let p1 : Operand := ⟨raws.getD 0 0, h.m1⟩
  let p2 : Operand := ⟨raws.getD 1 0, h.m2⟩
  let p3 : Operand := ⟨raws.getD 2 0, h.m3⟩
  match h.op with
  | .add => .add p1 p2 p3
  | .multiply => .multiply p1 p2 p3
  | .input => .input p1
  | .output => .output p1
  | .jumpIfTrue => .jumpIfTrue p1 p2
  | .jumpIfFalse => .jumpIfFalse p1 p2
  | .lessThan => .lessThan p1 p2 p3
  | .equals => .equals p1 p2 p3
  | .adjustRelativeBase => .adjustRelativeBase p1
  | .halt => .halt

/-- The decoder on a list of words: the instruction at its front and the words after it (R50, R67). -/
def decode (ws : List Int) : Except Reject (Instr × List Int) :=
  match ws with
  | [] => .error .truncated
  | w :: rest =>
    match decodeHeader w with
    | .error r => .error r
    | .ok h =>
      if rest.length < h.op.arity then .error .truncated
      else .ok (h.build rest, rest.drop h.op.arity)

/-- The header of an instruction: its opcode and its operands' modes, `position` for a parameter it lacks. -/
def Instr.header : Instr → Header
  | .add p1 p2 p3 => ⟨.add, p1.mode, p2.mode, p3.mode⟩
  | .multiply p1 p2 p3 => ⟨.multiply, p1.mode, p2.mode, p3.mode⟩
  | .input p1 => ⟨.input, p1.mode, .position, .position⟩
  | .output p1 => ⟨.output, p1.mode, .position, .position⟩
  | .jumpIfTrue p1 p2 => ⟨.jumpIfTrue, p1.mode, p2.mode, .position⟩
  | .jumpIfFalse p1 p2 => ⟨.jumpIfFalse, p1.mode, p2.mode, .position⟩
  | .lessThan p1 p2 p3 => ⟨.lessThan, p1.mode, p2.mode, p3.mode⟩
  | .equals p1 p2 p3 => ⟨.equals, p1.mode, p2.mode, p3.mode⟩
  | .adjustRelativeBase p1 => ⟨.adjustRelativeBase, p1.mode, .position, .position⟩
  | .halt => ⟨.halt, .position, .position, .position⟩

/-- `w = opcode + 100*m1 + 1000*m2 + 10000*m3` (R51, with `hi = 0`). -/
def Header.number (h : Header) : Nat :=
  h.op.number + 100 * h.m1.digit + 1000 * h.m2.digit + 10000 * h.m3.digit

/-- The opcode word of an instruction. -/
def Instr.opcodeWord (i : Instr) : Int := (i.header.number : Int)

/-- The words of an instruction in address order (R54): the opcode word and the parameter words. -/
def encode (i : Instr) : List Int := i.opcodeWord :: i.operands.map Operand.raw

/-- The instruction the decoder reads from an opcode word of value `w` followed by parameter words of zero. A word of
this machine has no width, so `w` whole is the opcode word and `nbits` says nothing more (log entry 10). -/
def decodeTableWord (_nbits w : Nat) : Option Instr :=
  match decode [(w : Int), 0, 0, 0] with
  | .ok (i, _) => some i
  | .error _ => none

end Sys2Proof
end

