-- ==== Sys2Proof/Machine/State.lean ====
section
/-! DEFINITION. The state of one core as plain data (spec/10_state.md R10 to R25) with the channels at its two ports, and
the reasons a step has no next state. The spec's own faults are a NEXT state (spec/60_exceptions.md R137): they are
`FaultCode` and `Raised` here, not `Fault`. -/

namespace Sys2Proof.Machine

/-- `status` (R15). -/
inductive Status where
  | running
  | halted
  | faulted
  | cancelled
deriving DecidableEq, Repr

/-- The five faults (spec/60_exceptions.md R130). -/
inductive FaultCode where
  | invalidOpcode
  | invalidMode
  | invalidOperand
  | addressFault
  | capacityExceeded
deriving DecidableEq, Repr

/-- A fault F with information i, as an instruction raises it (spec/60_exceptions.md R137). -/
structure Raised where
  code : FaultCode
  info : Int
deriving DecidableEq, Repr

/-- `Mem` (R19): the cells that do not read as an unlisted address does, by rising address (log entry 1). -/
abbrev Memory := List (Nat × Int)

/-- One core and the channels at its ports. -/
structure State where
  /-- the program counter, a word address (R12, R13) -/
  pc : Nat
  /-- the relative base (R14) -/
  rb : Int
  /-- the engine's state (R15) -/
  status : Status
  /-- `fault_code`; `none` unless a fault was taken (R16) -/
  faultCode : Option FaultCode
  /-- `fault_info`; written together with `fault_code` (R16) -/
  faultInfo : Option Int
  /-- the one address space (R19) -/
  mem : Memory
  /-- the content of the channel at `IN`, front first (R20) -/
  inChan : List Int
  /-- the content of the channel at `OUT`, front first (R20) -/
  outChan : List Int
  /-- the level at the `cancel` input (R24; spec/60_exceptions.md R142) -/
  cancel : Bool
  /-- MODEL's own: the instructions begun since `cancel` was set (log entry 6) -/
  cancelAge : Nat
  /-- MODEL's own: where `Config.cancelGrace` is read (log entry 6) -/
  cancelDraw : Nat
  /-- MODEL's own: the OPEN parameters of this implementation, written by no step (R5; log entry 3) -/
  config : Config
deriving DecidableEq, Repr

/-- Why a state has no step: the spec's "no step", not one of the spec's faults (log entry 4). -/
inductive Fault where
  /-- Raised by `step` when `status` is not Running: "No step is defined in those states" (spec/40_execution_cycle.md R82). Safe. -/
  | terminal (st : Status)
  /-- Raised by Input on an empty channel: "a blocked instance has no step" (spec/45_io.md R117). Safe: the hardware waits. -/
  | blockedOnInput
  /-- Raised by Output on a full channel of finite `CHAN_DEPTH`: "no step while the channel is full" (spec/45_io.md R119).
  Safe; it cannot occur at the spec's value. -/
  | blockedOnOutput
deriving DecidableEq, Repr

/-- Instructions without a meaning. -/
inductive Refusal where
  /-- Answered by `exec` alone, for an instruction the model gives no meaning; no arm of this model does. Safe. -/
  | notModelled (mnemonic : String)
deriving DecidableEq, Repr

/-- The machine after `reset([])` at the spec's parameters (R25; spec/70_reset_and_hazards.md R170), with both channels
empty (log entries 2 and 12). -/
def State.reset : State where
  pc := 0
  rb := 0
  status := .running
  faultCode := none
  faultInfo := none
  mem := []
  inChan := []
  outChan := []
  cancel := false
  cancelAge := 0
  cancelDraw := 0
  config := Config.spec

end Sys2Proof.Machine
end

