-- ==== Sys2Proof/Machine/Ops.lean ====
section
/-! DEFINITION. The named operations on memory, registers and channels, each written once: the MEMARB contract
(spec/20_memory.md), the writes of `pc`, the channel ends (spec/45_io.md R118, R119), taking a fault
(spec/60_exceptions.md R137), taking `cancel` (R142), and the ports of the platform (spec/10_state.md R24). -/

namespace Sys2Proof.Machine

/-- What an instruction or a step answers. -/
abbrev Result := Host.Outcome State Fault Refusal

/-! ### The updates of one element of the state -/

def setPc (n : Nat) (s : State) : State := { s with pc := n }

def setRb (v : Int) (s : State) : State := { s with rb := v }

def setMem (m : Memory) (s : State) : State := { s with mem := m }

def setIn (q : List Int) (s : State) : State := { s with inChan := q }

def setOut (q : List Int) (s : State) : State := { s with outChan := q }

/-- `status <- Halted` (spec/46_system.md R126). -/
def setHalted (s : State) : State := { s with status := .halted }

/-! ### Memory -/

/-- What an address reads as that the list does not hold: "returns 0 for any address never written" (R32). -/
def Memory.unlisted : Int := 0

/-- The value of the cell at an address (R32). -/
def Memory.read : Memory → Nat → Int
  | [], _ => Memory.unlisted
  | (k, x) :: m, a => if k = a then x else Memory.read m a

/-- The memory with one cell changed (R33), in the canonical form. -/
def Memory.write : Memory → Nat → Int → Memory
  | [], a, v => if v = Memory.unlisted then [] else [(a, v)]
  | (k, x) :: m, a, v =>
    if a < k then (if v = Memory.unlisted then (k, x) :: m else (a, v) :: (k, x) :: m)
    else if a = k then (if v = Memory.unlisted then m else (a, v) :: m)
    else (k, x) :: Memory.write m a v

/-- The canonical form: addresses strictly rising, no cell that reads as an unlisted one does. -/
def Memory.wf : Memory → Bool
  | [] => true
  | (k, x) :: m => x != Memory.unlisted && m.all (fun c => decide (k < c.1)) && Memory.wf m

/-- The cells of an image whose first word lies at `a` (R170). -/
def Memory.imageFrom (a : Nat) : List Int → Memory
  | [] => []
  | w :: ws =>
    if w = Memory.unlisted then Memory.imageFrom (a + 1) ws else (a, w) :: Memory.imageFrom (a + 1) ws

/-- The memory that an image loads: word `i` at address `i`, zero beyond (R31, R170). -/
def Memory.ofImage (image : List Int) : Memory := Memory.imageFrom 0 image

/-! ### The limits of an implementation (spec/00_scope.md R5) -/

/-- `ADDR_MAX`: "the largest address the memory accepts" (R36). -/
def admitsAddr (c : Config) (a : Nat) : Bool :=
  match c.addrMax with
  | none => true
  | some m => decide (a ≤ m)

/-- `CHAN_DEPTH`: the channel cannot take one more value (spec/45_io.md R119). An empty channel always can, a finite depth
being at least 1 (log entry 25). -/
def channelFull (c : Config) (q : List Int) : Bool :=
  match c.chanDepth with
  | none => false
  | some d => decide ((d : Nat) ≤ q.length)

/-- A result on its way to a cell or to `rb`: "must raise the fatal fault `CapacityExceeded` in place of the store or
register write" where the implementation cannot hold it (spec/42_arithmetic.md R103). -/
def result (v : Int) (s : State) : Except Raised Int :=
  if s.config.admitsWord v then .ok v else .error ⟨.capacityExceeded, v⟩

/-- The check of an effective address: below 0 `AddressFault` (R35), above a finite `ADDR_MAX` `CapacityExceeded` (R36). -/
def checkAddr (a : Int) (s : State) : Except Raised Nat :=
  if a < 0 then .error ⟨.addressFault, a⟩
  else if admitsAddr s.config a.toNat then .ok a.toNat
  else .error ⟨.capacityExceeded, a⟩

/-- `MemRead(addr, 1)` (R32, R35). -/
def memRead (a : Int) (s : State) : Except Raised Int :=
  match checkAddr a s with
  | .error e => .error e
  | .ok n => .ok (s.mem.read n)

/-- `MemWrite(addr, 1, v)` (R33, R35). -/
def memWrite (a : Int) (v : Int) (s : State) : Except Raised State :=
  match checkAddr a s with
  | .error e => .error e
  | .ok n => .ok (setMem (s.mem.write n v) s)

/-! ### The program counter -/

/-- The sequential `pc` write: `pc` plus the consumption width (spec/40_execution_cycle.md R78). -/
def advance (width : Nat) (s : State) : State := setPc (s.pc + width) s

/-- The `pc` write of a taken jump; a negative target raises `AddressFault` and leaves `pc` (spec/44_jumps.md R112). -/
def jumpTo (t : Int) (s : State) : Except Raised State :=
  if t < 0 then .error ⟨.addressFault, t⟩ else .ok (setPc t.toNat s)

/-! ### Channel ends -/

/-- `OUT.emit(v)`: append at the back (spec/45_io.md R119). -/
def emit (v : Int) (s : State) : State := setOut (s.outChan ++ [v]) s

/-- `IN.get()`: the front value and the state without it; `none` while the channel is empty (spec/45_io.md R118). -/
def inGet (s : State) : Option (Int × State) :=
  match s.inChan with
  | [] => none
  | v :: q => some (v, setIn q s)

/-! ### Faults and cancellation -/

/-- The fault sequence (spec/60_exceptions.md R137): status and the fault record are written, nothing else. There is no
return from it (R138); only the reset port leaves `Faulted`. -/
def takeFault (e : Raised) (s : State) : State :=
  { s with status := .faulted, faultCode := some e.code, faultInfo := some e.info }

/-- How an instruction ends: with the state it made, or with the fault it raised, taken in `s`. -/
def settle (s : State) (r : Except Raised State) : Result :=
  match r with
  | .ok t => .next t
  | .error e => .next (takeFault e s)

/-- The step `status <- Cancelled`, "which changes nothing else" (spec/60_exceptions.md R142). -/
def takeCancel (s : State) : State := { s with status := .cancelled }

/-- The fault's numeric code (spec/60_exceptions.md R130). -/
def FaultCode.number : FaultCode → Nat
  | .invalidOpcode => 1
  | .invalidMode => 2
  | .invalidOperand => 3
  | .addressFault => 4
  | .capacityExceeded => 5

/-- The decoder's rejection as the fault it raises, with the opcode word as information (spec/30_encoding.md R67). -/
def raisedOf (w : Int) : Reject → Raised
  | .invalidOpcode v => ⟨.invalidOpcode, v⟩
  | .invalidMode v => ⟨.invalidMode, v⟩
  | .truncated => ⟨.invalidOpcode, w⟩

/-- MODEL's own: one more instruction begun while `cancel` is set (log entry 6). -/
def pollCancel (s : State) : State :=
  if s.cancel then { s with cancelAge := s.cancelAge + 1 } else s

/-- MODEL's own: the free number of instructions after `cancel` is used up (log entry 6). -/
def cancelDue (s : State) : Bool := s.cancel && decide (Config.cancelGrace s.cancelDraw ≤ s.cancelAge)

/-! ### The ports of the platform (spec/10_state.md R24) -/

/-- `reset(image)`, in any state: every element of the instance at its reset value (spec/70_reset_and_hazards.md R170,
R175) and `cancel` clear; the channels are the driver's and stay (R176). The image is not held against a finite `WORD_BITS` or
`ADDR_MAX`: what `reset` does with one beyond them is the model's choice (log entry 23). -/
def resetPort (image : List Int) (s : State) : State :=
  { s with
    pc := 0
    rb := 0
    status := .running
    faultCode := none
    faultInfo := none
    mem := Memory.ofImage image
    cancel := false
    cancelAge := 0 }

/-- A core right after reset with `image`, its input channel seeded by the driver and its output channel empty (R176). Neither
the image nor the seed is held against a finite limit: the model's choice (log entries 22, 23 and 28). -/
def boot (c : Config) (image input : List Int) : State :=
  { State.reset with config := c, mem := Memory.ofImage image, inChan := input }

/-- The producer of the input channel appends a value (spec/60_exceptions.md R147, R149). The append is not held to a finite
`CHAN_DEPTH` (R119 speaks of Output only; log entry 22), nor the value to a finite `WORD_BITS` (log entry 28): the model's
choices. -/
def supply (v : Int) (s : State) : State := setIn (s.inChan ++ [v]) s

/-- The consumer of the output channel takes its front value (spec/60_exceptions.md R147). -/
def collect (s : State) : Option (Int × State) :=
  match s.outChan with
  | [] => none
  | v :: q => some (v, setOut q s)

/-- The platform sets the `cancel` level; "once set it stays set until reset" (spec/60_exceptions.md R142). -/
def raiseCancel (s : State) : State :=
  if s.cancel then s else { s with cancel := true, cancelAge := 0, cancelDraw := s.cancelDraw + 1 }

/-- The driver's memory read-out (R24; spec/40_execution_cycle.md R82). The address is not held against a finite `ADDR_MAX`: R36
speaks of the accesses that raise a fault, and the driver takes none; the model's choice (log entry 27). -/
def readOut (s : State) (a : Nat) : Int := s.mem.read a

/-- The source's boolean: `halted == (status == Halted)` (R15). -/
def haltedView (s : State) : Bool := s.status == .halted

end Sys2Proof.Machine
end

