-- ==== Sys2Proof/Machine/Operands.lean ====
section
/-! DEFINITION. The addressing-mode resolver: `load` and `store` of spec/41_operand_resolution.md, in the three modes. -/

namespace Sys2Proof.Machine

/-- The effective address of an operand; an Immediate operand has none (R92 to R96). The sum is exact (R94, R102). -/
def effectiveAddr (p : Operand) (s : State) : Option Int :=
  match p.mode with
  | .position => some p.raw
  | .immediate => none
  | .relative => some (s.rb + p.raw)

/-- `load(p)` (R92, R93, R94). -/
def load (p : Operand) (s : State) : Except Raised Int :=
  match effectiveAddr p s with
  | none => .ok p.raw
  | some a => memRead a s

/-- `store(p, v)` (R95, R96); an Immediate target raises `InvalidOperand` with the parameter word (R97). -/
def store (p : Operand) (v : Int) (s : State) : Except Raised State :=
  match effectiveAddr p s with
  | none => .error ⟨.invalidOperand, p.raw⟩
  | some a => memWrite a v s

/-- Both sources, p1 before p2 (spec/20_memory.md R42), and the value an ALU function makes of them, held against the
limits of the implementation. -/
def binary (f : Int → Int → Int) (p1 p2 : Operand) (s : State) : Except Raised Int := do
  let a ← load p1 s
  let b ← load p2 s
  result (f a b) s

/-- The shape of Add, Multiply, LessThan and Equals: two loads, one ALU function, one store, `pc + 4`. -/
def threeParam (f : Int → Int → Int) (p1 p2 p3 : Operand) (s : State) : Result :=
  settle s (do
    let r ← binary f p1 p2 s
    let t ← store p3 r s
    .ok (advance 4 t))

/-- The shape of the two jumps: the second operand is loaded only when the jump is taken (spec/44_jumps.md R113). -/
def jumpWhen (taken : Int → Bool) (p1 p2 : Operand) (s : State) : Result :=
  settle s (do
    let c ← load p1 s
    if taken c then
      let t ← load p2 s
      jumpTo t s
    else .ok (advance 3 s))

end Sys2Proof.Machine
end

