-- ==== Sys2Proof/Machine/Arith.lean ====
section
/-! DEFINITION. Add and Multiply (spec/42_arithmetic.md): exact, on the integers (R102). -/

namespace Sys2Proof.Machine

/-- Add, opcode 1 (R100). -/
def execAdd (p1 p2 p3 : Operand) (s : State) : Result := threeParam (fun a b => a + b) p1 p2 p3 s

/-- Multiply, opcode 2 (R101). -/
def execMultiply (p1 p2 p3 : Operand) (s : State) : Result := threeParam (fun a b => a * b) p1 p2 p3 s

end Sys2Proof.Machine
end

