-- ==== Sys2Proof/Machine/Flags.lean ====
section
/-! DEFINITION. The machine has no flags (spec/10_state.md R17). What other machines keep in flags is here a word: the 0 or
1 of a comparison (spec/43_compare.md R107) and the test of a loaded value against zero (spec/44_jumps.md). -/

namespace Sys2Proof.Machine

/-- "The result is the integer 1 or the integer 0, a full word" (R107). -/
def truthWord (b : Bool) : Int := if b then 1 else 0

/-- Strictly less, as signed integers of any size (R105, R107). -/
def lessThanWord (a b : Int) : Int := truthWord (decide (a < b))

/-- The same integer (R106, R107). -/
def equalsWord (a b : Int) : Int := truthWord (decide (a = b))

/-- "true" is any non-zero value, negative values included (spec/44_jumps.md R110). -/
def truthy (c : Int) : Bool := decide (c ≠ 0)

/-- "only the integer 0 is false" (spec/44_jumps.md R111). -/
def falsy (c : Int) : Bool := decide (c = 0)

end Sys2Proof.Machine
end

