-- ==== Sys2Proof/Machine/Compare.lean ====
section
/-! DEFINITION. LessThan and Equals (spec/43_compare.md). -/

namespace Sys2Proof.Machine

/-- LessThan, opcode 7 (R105). -/
def execLessThan (p1 p2 p3 : Operand) (s : State) : Result := threeParam lessThanWord p1 p2 p3 s

/-- Equals, opcode 8 (R106). -/
def execEquals (p1 p2 p3 : Operand) (s : State) : Result := threeParam equalsWord p1 p2 p3 s

end Sys2Proof.Machine
end

