-- ==== Sys2Proof/Machine/InOut.lean ====
section
/-! DEFINITION. Input and Output (spec/45_io.md). -/

namespace Sys2Proof.Machine

/-- Input, opcode 3 (R115). The value is taken before the store is tried, so a fault of the store is taken in the state
that has lost it. On an empty channel there is no step (R117). -/
def execInput (p1 : Operand) (s : State) : Result :=
  match inGet s with
  | none => .fault .blockedOnInput
  | some (v, u) =>
    settle u (do
      let r ← result v u
      let t ← store p1 r u
      .ok (advance 2 t))

/-- Output, opcode 4 (R116). Only a finite `CHAN_DEPTH` can leave it without a step (R119). -/
def execOutput (p1 : Operand) (s : State) : Result :=
  match load p1 s with
  | .error e => .next (takeFault e s)
  | .ok v => if channelFull s.config s.outChan then .fault .blockedOnOutput else .next (advance 2 (emit v s))

end Sys2Proof.Machine
end

