-- ==== Sys2Proof/Machine/Jump.lean ====
section
/-! DEFINITION. JumpIfTrue and JumpIfFalse (spec/44_jumps.md). -/

namespace Sys2Proof.Machine

/-- JumpIfTrue, opcode 5 (R110). -/
def execJumpIfTrue (p1 p2 : Operand) (s : State) : Result := jumpWhen truthy p1 p2 s

/-- JumpIfFalse, opcode 6 (R111). -/
def execJumpIfFalse (p1 p2 : Operand) (s : State) : Result := jumpWhen falsy p1 p2 s

end Sys2Proof.Machine
end

