-- ==== Sys2Proof/Machine/System.lean ====
section
/-! DEFINITION. AdjustRelativeBase and Halt (spec/46_system.md). -/

namespace Sys2Proof.Machine

/-- AdjustRelativeBase, opcode 9 (R125); the load uses the old base (spec/41_operand_resolution.md R91). -/
def execAdjustRelativeBase (p1 : Operand) (s : State) : Result :=
  settle s (do
    let v ← load p1 s
    let b ← result (s.rb + v) s
    .ok (advance 2 (setRb b s)))

/-- Halt, opcode 99 (R126): `status` only; `pc` stays at the Halt word. -/
def execHalt (s : State) : Result := .next (setHalted s)

end Sys2Proof.Machine
end

