-- ==== Sys2Proof/Machine/Fetch.lean ====
section
/-! DEFINITION. Reading an instruction from memory: `decode(Mem, pc)` of spec/30_encoding.md R67. -/

namespace Sys2Proof.Machine

/-- The `n` parameter words from address `a` on, in address order (R52, R59; spec/20_memory.md R42). -/
def readParams (a : Nat) : Nat → State → Except Raised (List Int)
  | 0, _ => .ok []
  | n + 1, s => do
    let w ← memRead a s
    let ws ← readParams (a + 1) n s
    .ok (w :: ws)

/-- `decode(Mem, pc)`: the opcode word and its checks, then the parameter words, "only after the opcode word has passed
every check" (R59, R67). -/
def fetchInstr (s : State) : Except Raised Instr := do
  let w ← memRead s.pc s
  match decodeHeader w with
  | .error r => .error (raisedOf w r)
  | .ok h =>
    let raws ← readParams (s.pc + 1) h.op.arity s
    .ok (h.build raws)

end Sys2Proof.Machine
end

