-- ==== Sys2Proof/Machine/Engine.lean ====
section
/-! DEFINITION. The PCSEQ loop's one turn: the `step` of spec/40_execution_cycle.md R77. -/

namespace Sys2Proof.Machine

/-- Fetch, decode and execute one whole instruction, or take the fault the decoder raises (R77, R79). -/
def runInstruction (s : State) : Result :=
  match fetchInstr s with
  | .error e => .next (takeFault e s)
  | .ok i => exec i s

/-- One step (R77). Only a Running core has one (R82). With `cancel` set the step to `Cancelled` may be taken instead of an
instruction; when is free (spec/60_exceptions.md R142, log entry 6), and a blocked core has no other step (log entry 7). -/
def engineStep (s : State) : Result :=
  match s.status with
  | .running =>
    if cancelDue s then .next (takeCancel s)
    else
      match runInstruction (pollCancel s) with
      | .next t => .next t
      | .fault r => if s.cancel then .next (takeCancel s) else .fault r
      | .refused r => .refused r
  | .halted => .fault (.terminal .halted)
  | .faulted => .fault (.terminal .faulted)
  | .cancelled => .fault (.terminal .cancelled)

/-- `s` made ready to run, at its next step, the instruction with opcode word `w` and parameter words zero: the four words
at `pc`, and what keeps a step from being an instruction (a terminal status, `cancel`) taken away (log entry 10). -/
def placeWord (w : Nat) (s : State) : State :=
  { s with
    mem := (((s.mem.write s.pc (w : Int)).write (s.pc + 1) 0).write (s.pc + 2) 0).write (s.pc + 3) 0
    status := .running
    cancel := false }

end Sys2Proof.Machine
end

