-- ==== Sys2Proof/Machine/Step.lean ====
section
/-! DEFINITION. The step of the core under the names the host fixes. -/

namespace Sys2Proof.Machine

/-- One step of the core (spec/40_execution_cycle.md R77). -/
def step (s : State) : Host.Outcome State Fault Refusal := engineStep s

/-- `s` with the instruction of a table word where `step` fetches next (log entry 10). -/
def State.withFetchWord (s : State) (_nbits w : Nat) : State := placeWord w s

end Sys2Proof.Machine
end

