-- ==== Sys2Proof/Machine/Arbiter.lean ====
section
/-! DEFINITION. The requests MEMARB serves during one instruction, in the order of spec/20_memory.md R42. This is a reading
of the step, not a part of it: a request whose address faults is not served and ends the list. -/

namespace Sys2Proof.Machine

/-- A served request (R42): a fetch read, an operand read, the result write. -/
inductive Access where
  | fetch (a : Nat)
  | load (a : Nat)
  | store (a : Nat)
deriving DecidableEq, Repr

/-- The request a checked address makes, if it is served (R35, R36). -/
def served (mk : Nat → Access) (a : Int) (s : State) : List Access :=
  match checkAddr a s with
  | .ok n => [mk n]
  | .error _ => []

/-- The reads of `n` parameter words from address `a` on, up to the first that faults. -/
def fetchRequests (a : Nat) : Nat → State → List Access
  | 0, _ => []
  | n + 1, s =>
    match memRead a s with
    | .error _ => []
    | .ok _ => .fetch a :: fetchRequests (a + 1) n s

/-- "An Immediate-mode source makes no memory request" (R42). -/
def operandRequest (mk : Nat → Access) (p : Operand) (s : State) : List Access :=
  match effectiveAddr p s with
  | none => []
  | some a => served mk a s

/-- The operands an instruction loads when no load faults, in order: a jump's second one only when it is taken. -/
def loadedOperands (i : Instr) (s : State) : List Operand :=
  match i with
  | .add p1 p2 _ => [p1, p2]
  | .multiply p1 p2 _ => [p1, p2]
  | .input _ => []
  | .output p1 => [p1]
  | .jumpIfTrue p1 p2 => match load p1 s with
    | .ok c => if truthy c then [p1, p2] else [p1]
    | .error _ => [p1]
  | .jumpIfFalse p1 p2 => match load p1 s with
    | .ok c => if falsy c then [p1, p2] else [p1]
    | .error _ => [p1]
  | .lessThan p1 p2 _ => [p1, p2]
  | .equals p1 p2 _ => [p1, p2]
  | .adjustRelativeBase p1 => [p1]
  | .halt => []

/-- The operand reads, up to the first that faults. -/
def loadRequests : List Operand → State → List Access
  | [], _ => []
  | p :: ps, s =>
    match load p s with
    | .error _ => []
    | .ok _ => operandRequest .load p s ++ loadRequests ps s

/-- The value an instruction stores, where it gets as far as its store. -/
def storedValue (i : Instr) (s : State) : Option Int :=
  match i with
  | .add p1 p2 _ => (binary (fun a b => a + b) p1 p2 s).toOption
  | .multiply p1 p2 _ => (binary (fun a b => a * b) p1 p2 s).toOption
  | .input _ => match inGet s with
    | none => none
    | some (v, u) => (result v u).toOption
  | .output _ => none
  | .jumpIfTrue _ _ => none
  | .jumpIfFalse _ _ => none
  | .lessThan p1 p2 _ => (binary lessThanWord p1 p2 s).toOption
  | .equals p1 p2 _ => (binary equalsWord p1 p2 s).toOption
  | .adjustRelativeBase _ => none
  | .halt => none

/-- The write, if there is one. -/
def storeRequests (i : Instr) (s : State) : List Access :=
  match i.destination, storedValue i s with
  | some p, some _ => operandRequest .store p s
  | _, _ => []

/-- The requests of the instruction at `pc`, in the order they are served (R42). -/
def requests (s : State) : List Access :=
  match memRead s.pc s with
  | .error _ => []
  | .ok w =>
    .fetch s.pc ::
      match decodeHeader w with
      | .error _ => []
      | .ok h =>
        fetchRequests (s.pc + 1) h.op.arity s ++
          match fetchInstr s with
          | .error _ => []
          | .ok i => loadRequests (loadedOperands i s) s ++ storeRequests i s

end Sys2Proof.Machine
end

