-- ==== Sys2Proof/Machine/Loader.lean ====
section
/-! DEFINITION. The program text and the image it denotes (spec/70_reset_and_hazards.md R172; spec/30_encoding.md R69). This
is the driver's work, done before the core is reset; a text outside the grammar is refused and no core sees it. -/

namespace Sys2Proof.Machine

/-- The value of an ASCII decimal digit. -/
def digitValue (c : Char) : Option Nat :=
  if 48 ≤ c.toNat ∧ c.toNat ≤ 57 then some (c.toNat - 48) else none

/-- The rest of an item after its first digit: more digits, most significant first, then optional spaces. -/
def readTail : List Char → Nat → Option Nat
  | [], n => some n
  | c :: cs, n =>
    match digitValue c with
    | some d => readTail cs (10 * n + d)
    | none => if c = ' ' ∧ cs.all (fun x => x = ' ') then some n else none

/-- One or more digits, then optional spaces. -/
def readNumber : List Char → Option Nat
  | [] => none
  | c :: cs =>
    match digitValue c with
    | some d => readTail cs d
    | none => none

/-- "an item is optional spaces, an optional `-`, one or more ASCII decimal digits, optional spaces" (R172). -/
def readItem (cs : List Char) : Option Int :=
  match cs.dropWhile (fun x => x = ' ') with
  | '-' :: r => (readNumber r).map (fun n : Nat => -(n : Int))
  | r => (readNumber r).map (fun n : Nat => (n : Int))

/-- The pieces between commas; there is always at least one. -/
def splitItems : List Char → List (List Char)
  | [] => [[]]
  | c :: cs =>
    if c = ',' then [] :: splitItems cs
    else
      match splitItems cs with
      | [] => [[c]]
      | x :: xs => (c :: x) :: xs

/-- "the text may end with one line ending" (R172): LF, or CR LF (log entry 15). -/
def stripLineEnd (cs : List Char) : List Char :=
  match cs.reverse with
  | '\n' :: '\r' :: r => r.reverse
  | '\n' :: r => r.reverse
  | _ => cs

/-- Every item, or nothing. -/
def readItems : List (List Char) → Option (List Int)
  | [] => some []
  | x :: xs =>
    match readItem x, readItems xs with
    | some w, some ws => some (w :: ws)
    | _, _ => none

/-- The image of a program text, or `none` where the loader refuses it (R172, D23). -/
def parseText (cs : List Char) : Option (List Int) := readItems (splitItems (stripLineEnd cs))

/-- The digit characters of a natural number, most significant first; `fuel` at least the number of digits. -/
def digitsOf : Nat → Nat → List Char
  | 0, _ => []
  | fuel + 1, n =>
    if n < 10 then [Char.ofNat (48 + n)] else digitsOf fuel (n / 10) ++ [Char.ofNat (48 + n % 10)]

/-- An integer written in decimal (R69). -/
def renderItem : Int → List Char
  | .ofNat n => digitsOf (n + 1) n
  | .negSucc n => '-' :: digitsOf (n + 2) (n + 1)

/-- The program text of an image (R69): "comma-separated ASCII integers". The empty image has none (R172). -/
def renderText : List Int → List Char
  | [] => []
  | [w] => renderItem w
  | w :: v :: ws => renderItem w ++ ',' :: renderText (v :: ws)

end Sys2Proof.Machine
end

