-- ==== Sys2Proof/Machine/Platform.lean ====
section
/-! DEFINITION. One core and its platform: what the outside can do to a core between its steps (spec/10_state.md R24,
spec/45_io.md R120, spec/70_reset_and_hazards.md R175 to R179). -/

namespace Sys2Proof.Machine

/-- What can happen to a standalone core. -/
inductive Event where
  /-- the core takes its step (spec/40_execution_cycle.md R77) -/
  | step
  /-- the producer of `IN` appends a value (spec/60_exceptions.md R147) -/
  | supply (v : Int)
  /-- the consumer of `OUT` takes a value (spec/60_exceptions.md R147) -/
  | collect
  /-- the platform sets `cancel` (spec/60_exceptions.md R142) -/
  | raiseCancel
  /-- the `reset` port (spec/70_reset_and_hazards.md R170, R175) -/
  | reset (image : List Int)
deriving DecidableEq, Repr

/-- The state after an event; `none` where the event is not possible: no step, nothing to collect. -/
def applyEvent (e : Event) (s : State) : Option State :=
  match e with
  | .step =>
    match step s with
    | .next t => some t
    | .fault _ => none
    | .refused _ => none
  | .supply v => some (supply v s)
  | .collect => (collect s).map Prod.snd
  | .raiseCancel => some (raiseCancel s)
  | .reset image => some (resetPort image s)

/-- A sequence of events, as far as all are possible. -/
def applyEvents : List Event → State → Option State
  | [], s => some s
  | e :: es, s =>
    match applyEvent e s with
    | none => none
    | some t => applyEvents es t

end Sys2Proof.Machine
end

