-- ==== Sys2Proof/Machine/Pipeline.lean ====
section
/-! DEFINITION. The pipeline platform (spec/60_exceptions.md R147 to R159): N cores in a ring of N channels. Channel i, the
input channel of instance i, is held in that instance's `inChan`; no instance holds output between steps (log entry 16). -/

namespace Sys2Proof.Machine

/-- N instances in ring order (R150). That the type admits N = 0, where R150 gives N ≥ 1, is the model's choice (log entry 26). -/
structure Pipeline where
  insts : List State
deriving DecidableEq, Repr

/-- "instance i has `IN` = channel i and `OUT` = channel (i+1) mod N" (R150). -/
def outIndex (n i : Nat) : Nat := (i + 1) % n

/-- The content of channel `i` (R147, R150). -/
def channel (p : Pipeline) (i : Nat) : List Int :=
  match p.insts[i]? with
  | some s => s.inChan
  | none => []

/-- The seeds (R151): channel i holds `[phase[i]]`, and channel 0 "additionally" the initial input, the phase first. -/
def seeds (x0 : Int) : List Int → List (List Int)
  | [] => []
  | phase :: phases => [phase, x0] :: phases.map (fun q => [q])

/-- The pipeline before any instance starts: every instance reset with its own copy of the image (R150), every channel
seeded (R151). The seeds are not held to a finite `CHAN_DEPTH` or `WORD_BITS`, nor the image to the other limits: the model's
choice (log entries 22, 23 and 28). So is that no phases build a pipeline of N = 0 instances (log entry 26). -/
def Pipeline.build (c : Config) (image : List Int) (x0 : Int) (phases : List Int) : Pipeline :=
  ⟨(seeds x0 phases).map (fun q => boot c image q)⟩

/-- Instance `i` as a core with the two channels of the ring at its ports. -/
def view (p : Pipeline) (i : Nat) : Option State :=
  match p.insts[i]? with
  | none => none
  | some s => some { s with outChan := channel p (outIndex p.insts.length i) }

/-- The ring after instance `i` stepped to `t`: what it consumed is gone from channel i, what it emitted is at the back of
channel (i+1) mod N. For N = 1 both are the same channel (R149). -/
def putBack (p : Pipeline) (i : Nat) (t : State) : Pipeline :=
  let j := outIndex p.insts.length i
  let emitted := t.outChan.drop (channel p j).length
  ⟨(p.insts.set i { t with outChan := [] }).modify j (fun r => { r with inChan := r.inChan ++ emitted })⟩

/-- "When any instance becomes `Faulted`, the platform sets `cancel` for every instance of that pipeline" (R156). -/
def propagate (p : Pipeline) : Pipeline :=
  if p.insts.any (fun s => s.status == .faulted) then ⟨p.insts.map raiseCancel⟩ else p

/-- A choice of the free schedule (R152): which instance steps, and with what step (R142). -/
inductive Choice where
  /-- instance `i` runs one whole instruction -/
  | run (i : Nat)
  /-- instance `i`, its `cancel` being set, becomes Cancelled -/
  | cancel (i : Nat)
deriving DecidableEq, Repr

/-- The instance a choice lets step. -/
def Choice.index : Choice → Nat
  | .run i => i
  | .cancel i => i

/-- One step of one instance; `none` where that instance has no such step: no such instance, not Running, blocked, or
`cancel` not set (R152; spec/40_execution_cycle.md R82; spec/45_io.md R117). -/
def Pipeline.step (ch : Choice) (p : Pipeline) : Option Pipeline :=
  match ch with
  | .run i =>
    match view p i with
    | none => none
    | some s =>
      if s.status = .running then
        match runInstruction s with
        | .next t => some (propagate (putBack p i t))
        | .fault _ => none
        | .refused _ => none
      else none
  | .cancel i =>
    match p.insts[i]? with
    | none => none
    | some s =>
      if s.status = .running ∧ s.cancel = true then some ⟨p.insts.set i (takeCancel s)⟩ else none

/-- The pipeline after a schedule, if every step of it was possible. -/
def Pipeline.runSchedule : List Choice → Pipeline → Option Pipeline
  | [], p => some p
  | ch :: chs, p =>
    match p.step ch with
    | none => none
    | some q => Pipeline.runSchedule chs q

/-- How a pipeline run ends (R155, R156). -/
inductive Outcome where
  /-- every instance Halted; the front value of channel 0 -/
  | value (v : Int)
  /-- every instance Halted and channel 0 empty -/
  | noResult
  /-- `NetworkFault(i, fault_code, fault_info)` -/
  | networkFault (i : Nat) (code : FaultCode) (info : Int)
deriving DecidableEq, Repr

/-- Every instance is terminal, so the run is over ("joining", spec/70_reset_and_hazards.md R179). -/
def Pipeline.joined (p : Pipeline) : Bool := p.insts.all (fun s => s.status != .running)

/-- The first faulted instance from index `i` on. -/
def firstFault (i : Nat) : List State → Option Outcome
  | [] => none
  | s :: ss =>
    match s.faultCode, s.faultInfo with
    | some code, some info => some (.networkFault i code info)
    | _, _ => firstFault (i + 1) ss

/-- The outcome of a joined pipeline; of several faulted instances the first is reported, where R156 allows any (log entry
18, and `Reports`). A pipeline of N = 0 instances, which the spec does not have, is joined at once and has no result: the
model's choice (log entry 26). -/
def Pipeline.outcome (p : Pipeline) : Option Outcome :=
  if p.joined then
    if p.insts.all (fun s => s.status == .halted) then
      match channel p 0 with
      | v :: _ => some (.value v)
      | [] => some .noResult
    else firstFault 0 p.insts
  else none

/-- R155 and R156 with their freedom: the outcomes a joined pipeline may report. -/
inductive Reports (p : Pipeline) : Outcome → Prop where
  | value (v : Int) (q : List Int) (hHalted : ∀ s ∈ p.insts, s.status = .halted) (hFront : channel p 0 = v :: q) :
      Reports p (.value v)
  | noResult (hHalted : ∀ s ∈ p.insts, s.status = .halted) (hEmpty : channel p 0 = []) : Reports p .noResult
  | networkFault (i : Nat) (s : State) (code : FaultCode) (info : Int) (hJoined : p.joined = true)
      (hInst : p.insts[i]? = some s) (hStatus : s.status = .faulted) (hCode : s.faultCode = some code)
      (hInfo : s.faultInfo = some info) : Reports p (.networkFault i code info)

/-- Deadlock (R157): somebody is still Running, and no choice is possible. It is no fault and gives no outcome. -/
def Pipeline.deadlocked (p : Pipeline) : Prop := p.joined = false ∧ ∀ ch, p.step ch = none

end Sys2Proof.Machine
end

