-- ==== Sys2Proof/Machine/Search.lean ====
section
/-! DEFINITION. The search driver (spec/60_exceptions.md R158): software outside the hardware, stated in the spec because
the source gives its result for one program. -/

namespace Sys2Proof.Machine

/-- Each element of a list with the list that is left when it is taken out, in order. -/
def picks : List Int → List (Int × List Int)
  | [] => []
  | x :: xs => (x, xs) :: (picks xs).map (fun c => (c.1, x :: c.2))

/-- The permutations of a list of `n` values, in lexicographic order of positions (R158, D18). -/
def permsOf : Nat → List Int → List (List Int)
  | 0, _ => [[]]
  | n + 1, xs => (picks xs).flatMap (fun c => (permsOf n c.2).map (fun r => c.1 :: r))

/-- "lexicographic order over the range in ascending order", the range having exactly N values (R158): the range is put in
ascending order first, however it is given. An empty range has the one empty permutation, a pipeline of N = 0 instances: the
model's choice (log entry 26). -/
def permutations (range : List Int) : List (List Int) := permsOf range.length (range.insertionSort (· ≤ ·))

/-- How the search ends. -/
inductive SearchEnd where
  /-- the permutation with the largest value, the first seen of equals -/
  | selected (phases : List Int) (value : Int)
  /-- a run without a result "ends the whole search with that outcome" -/
  | stopped (o : Outcome)
  /-- there was no permutation to try -/
  | nothing
deriving DecidableEq, Repr

/-- The search over the permutations that are left, with the best so far; `runOf phases` is how the pipeline run with these
phases ends, `none` where it never ends, and then the search never ends (R158). -/
def searchFrom (runOf : List Int → Option Outcome) : Option (List Int × Int) → List (List Int) → Option SearchEnd
  | none, [] => some .nothing
  | some (phases, v), [] => some (.selected phases v)
  | best, phases :: rest =>
    match runOf phases with
    | none => none
    | some .noResult => some (.stopped .noResult)
    | some (.networkFault i code info) => some (.stopped (.networkFault i code info))
    | some (.value v) =>
      match best with
      | none => searchFrom runOf (some (phases, v)) rest
      | some (bp, bv) =>
        if bv < v then searchFrom runOf (some (phases, v)) rest else searchFrom runOf (some (bp, bv)) rest

/-- The search over a range (R158). -/
def search (runOf : List Int → Option Outcome) (range : List Int) : Option SearchEnd :=
  searchFrom runOf none (permutations range)

/-- `runOf` tells the truth about the pipelines of a range: an outcome it gives is one that some schedule, from the freshly
built pipeline, ends with and may report, and where it gives none no schedule ever comes to an end (R152, R155 to R158). -/
def RunsOf (c : Config) (image : List Int) (x0 : Int) (range : List Int) (runOf : List Int → Option Outcome) : Prop :=
  ∀ phases ∈ permutations range,
    (∀ o, runOf phases = some o →
      ∃ schedule p, Pipeline.runSchedule schedule (Pipeline.build c image x0 phases) = some p ∧ Reports p o) ∧
      (runOf phases = none →
        ∀ schedule p, Pipeline.runSchedule schedule (Pipeline.build c image x0 phases) = some p → p.joined = false)

end Sys2Proof.Machine
end

