-- ==== Sys2Proof/WellFormed.lean ====
section
/-! DEFINITION. Which instructions are well formed: the destination is not in Immediate mode (spec/90_conflicts.md C1:
such a program "is malformed"; it decodes all the same and faults at the store, spec/30_encoding.md R65), and every word
of the encoding is a word of the configuration (spec/00_scope.md R5). -/

namespace Sys2Proof

/-- The destination, if there is one, is in Position or Relative mode (R55, R97). -/
def Instr.destinationOk (i : Instr) : Bool :=
  match i.destination with
  | none => true
  | some p => p.mode != .immediate

/-- Every word of the instruction is a `WORD` of the configuration; at the spec's value it always is. -/
def Instr.wordsFit (c : Config) (i : Instr) : Bool := (encode i).all c.admitsWord

/-- A well-formed instruction of the configuration `c`. -/
def Instr.wellFormed (c : Config) (i : Instr) : Bool := i.destinationOk && i.wordsFit c

end Sys2Proof
end

