-- ==== Sys2Proof/Safety.lean ====
section
/-! DEFINITION. The terms in which claims about the machine are made: terminal and blocked states, the invariants, the steps
the spec allows, weak fairness, the legal opcode words. -/

namespace Sys2Proof.Machine

/-- Halted, Faulted or Cancelled (spec/40_execution_cycle.md R82). -/
def State.terminal (s : State) : Prop := s.status ≠ .running

/-- "A run has ended well only when `status = Halted`" (R82). -/
def State.endedWell (s : State) : Prop := s.status = .halted

/-- Running at an instruction that has no step (spec/45_io.md R117, R119). -/
def State.blocked (s : State) : Prop :=
  s.status = .running ∧ (runInstruction s = .fault .blockedOnInput ∨ runInstruction s = .fault .blockedOnOutput)

/-- The memory is canonical, and the fault record says exactly whether `status` is Faulted (spec/10_state.md R16). -/
def State.Inv (s : State) : Prop :=
  s.mem.wf = true ∧ (s.status = .faulted ↔ s.faultCode.isSome = true) ∧ (s.faultCode.isSome = s.faultInfo.isSome)

/-- Every word the core holds in memory and `rb`, and every listed address, is within the limits of the implementation, and
the output channel within its depth: nothing was ever wrapped or cut (spec/42_arithmetic.md R103; spec/20_memory.md R36;
spec/00_scope.md R5). -/
def State.WithinLimits (s : State) : Prop :=
  s.config.admitsWord s.rb = true ∧
    (∀ c ∈ s.mem, s.config.admitsWord c.2 = true ∧ admitsAddr s.config c.1 = true) ∧
    ∀ d : ℕ+, s.config.chanDepth = some d → s.outChan.length ≤ (d : Nat)

/-- The steps R77 allows a Running core: its instruction (with any fault it takes), or, `cancel` being set, the step to
Cancelled (spec/60_exceptions.md R142). -/
inductive Transition (s : State) : State → Prop where
  | instruction (t : State) (hRunning : s.status = .running) (hRun : runInstruction (pollCancel s) = .next t) : Transition s t
  | cancelled (hRunning : s.status = .running) (hCancel : s.cancel = true) : Transition s (takeCancel s)

/-- `t` is reached from `s` by steps of the core. -/
inductive Reaches : State → State → Prop where
  | refl (s : State) : Reaches s s
  | step (s t u : State) (hReach : Reaches s t) (hStep : Machine.step t = .next u) : Reaches s u

/-- A safe run: no fault of the spec is taken from `s` on. -/
def State.Safe (s : State) : Prop := ∀ t, Reaches s t → t.status ≠ .faulted

/-- Where some instance is Faulted, `cancel` is set for every instance (spec/60_exceptions.md R156). -/
def Pipeline.CancelCoversFaults (p : Pipeline) : Prop :=
  (∃ s ∈ p.insts, s.status = .faulted) → ∀ s ∈ p.insts, s.cancel = true

/-- An execution of a pipeline: each next pipeline is a step of some choice, or nothing stepped (R152). -/
def Pipeline.Execution (run : Nat → Pipeline) (choice : Nat → Option Choice) : Prop :=
  ∀ n, match choice n with
    | none => run (n + 1) = run n
    | some ch => (run n).step ch = some (run (n + 1))

/-- Weak fairness (spec/70_reset_and_hazards.md R184): an instance with an enabled step eventually takes a step, and an
instance for which `cancel` is set eventually becomes terminal. -/
def Pipeline.WeaklyFair (run : Nat → Pipeline) (choice : Nat → Option Choice) : Prop :=
  (∀ (n i : Nat), (∃ p, (run n).step (.run i) = some p) → ∃ m, n ≤ m ∧ ∃ ch, choice m = some ch ∧ ch.index = i) ∧
  (∀ (n i : Nat) (s : State), (run n).insts[i]? = some s → s.cancel = true →
    ∃ m, n ≤ m ∧ ∃ t : State, (run m).insts[i]? = some t ∧ t.terminal)

/-- An execution of a standalone core and its platform: each next state is the result of an event, or nothing happened. -/
def Standalone.Execution (run : Nat → State) (event : Nat → Option Event) : Prop :=
  ∀ n, match event n with
    | none => run (n + 1) = run n
    | some e => applyEvent e (run n) = some (run (n + 1))

/-- Weak fairness of a standalone core: "the engine does not simply stop between instructions" (R184). R184 does not speak of
`reset`; that a later `reset`, which ends the run, counts as fulfilling the promise is the model's choice (log entry 24). -/
def Standalone.WeaklyFair (run : Nat → State) (event : Nat → Option Event) : Prop :=
  ∀ n : Nat, (∃ t, step (run n) = .next t) → ∃ m, n ≤ m ∧ ((∃ image, event m = some (.reset image)) ∨ event m = some .step)

end Sys2Proof.Machine

namespace Sys2Proof

/-- A header as the decoder makes it: the mode of a parameter the opcode lacks is `position`, digit 0 (spec/30_encoding.md R62). -/
def Header.wf (h : Header) : Prop :=
  (h.op.arity < 1 → h.m1 = .position) ∧ (h.op.arity < 2 → h.m2 = .position) ∧ (h.op.arity < 3 → h.m3 = .position)

/-- R56, the opcodes 1, 2, 7 and 8: the words that can complete, less the opcode. -/
def threeParamWords : List Nat :=
  [0, 100, 200, 1000, 1100, 1200, 2000, 2100, 2200] ++
    [20000, 20100, 20200, 21000, 21100, 21200, 22000, 22100, 22200]

/-- R56, the opcodes 1, 2, 7 and 8: the words that decode and raise `InvalidOperand` at the store, less the opcode. -/
def threeParamBadWords : List Nat :=
  [10000, 10100, 10200, 11000, 11100, 11200, 12000, 12100, 12200]

/-- R56, the opcodes 5 and 6, less the opcode. -/
def jumpWords : List Nat := [0, 100, 200, 1000, 1100, 1200, 2000, 2100, 2200]

/-- R56, column "Words that decode and can complete": 99 words. -/
def completeWords : List Nat :=
  threeParamWords.map (1 + ·) ++ threeParamWords.map (2 + ·) ++ [3, 203] ++ [4, 104, 204] ++
    jumpWords.map (5 + ·) ++ jumpWords.map (6 + ·) ++ threeParamWords.map (7 + ·) ++ threeParamWords.map (8 + ·) ++
    [9, 109, 209] ++ [99]

/-- R56, column "Words that decode and then raise `InvalidOperand` at the store": 37 words. -/
def badStoreWords : List Nat :=
  threeParamBadWords.map (1 + ·) ++ threeParamBadWords.map (2 + ·) ++ [103] ++ threeParamBadWords.map (7 + ·) ++
    threeParamBadWords.map (8 + ·)

end Sys2Proof
end

