-- ==== Sys2Proof/Certificates/Slice0/Obligations.lean ====
section
/-! DEFINITION. The statements about the machine, each from the rules of spec/ that its docstring names. -/

open Sys2Proof Sys2Proof.Machine

/-! ### Reset, invariants, terminal states -/

/-- 70_reset_and_hazards.md R170, R175: whatever the state, the reset port leaves every element of the core at its reset
value, with the image at the low addresses and zero beyond; `cancel` is clear (R176), and the channels are not touched (R176).
That this is so of every image at finite `WORD_BITS` and `ADDR_MAX` too, where the spec does not say what `reset` does with words
and cells beyond them, is the model's choice (log entry 23). -/
def Obligations.ResetPortGivesResetState : Prop :=
  ∀ (image : List Int) (s : State),
    let t := resetPort image s
    t.pc = 0 ∧ t.rb = 0 ∧ t.status = .running ∧ t.faultCode = none ∧ t.faultInfo = none ∧
      (∀ (a : Nat) (h : a < image.length), t.mem.read a = image[a]) ∧
      (∀ a : Nat, image.length ≤ a → t.mem.read a = 0) ∧
      t.cancel = false ∧ t.inChan = s.inChan ∧ t.outChan = s.outChan

/-- 70_reset_and_hazards.md R171: the entry point is 0, and with an empty image the first step takes `InvalidOpcode(0)`,
whatever the input channel holds. (That it may hold anything at finite limits is the model's choice, log entries 22 and 28.) -/
def Obligations.EmptyImageFaultsAtOnce : Prop :=
  ∀ (c : Config) (q : List Int),
    step (boot c [] q) =
      .next { boot c [] q with status := .faulted, faultCode := some .invalidOpcode, faultInfo := some 0 }

/-- The model's invariant holds at `State.reset`, and so do the limits of the implementation. That `State.reset` is the reset
of the empty image with empty channels is the model's choice (log entries 2 and 12). -/
def Obligations.ResetMeetsInvariant : Prop := State.reset.Inv ∧ State.reset.WithinLimits

/-- 70_reset_and_hazards.md R170: a core booted with any image meets the invariant, its loaded memory being canonical, and is
Running with an empty fault record. That it is so at finite limits too, whatever the image and the input, is the model's choice
(log entries 22, 23 and 28). -/
def Obligations.LoadedImageMeetsInvariant : Prop :=
  ∀ (c : Config) (image input : List Int),
    let s := boot c image input
    s.Inv ∧ s.status = .running ∧ s.faultCode = none ∧ s.faultInfo = none

/-- Every step keeps the invariant: canonical memory, and a fault record (10_state.md R16) that is written exactly when
`status` is Faulted. -/
def Obligations.StepKeepsInvariant : Prop := ∀ s t : State, s.Inv → step s = .next t → t.Inv

/-- 42_arithmetic.md R103, 20_memory.md R36, 00_scope.md R5: at every setting of the OPEN parameters, a step never leaves a word
outside `WORD_BITS` in memory or `rb`, nor a cell above `ADDR_MAX`, nor more than `CHAN_DEPTH` values in the output channel.
Nothing is wrapped, cut or clamped into range either, since the results are stated exactly elsewhere. Where a finite limit is
checked is the model's reading (log entry 8). -/
def Obligations.StepKeepsWithinLimits : Prop := ∀ s t : State, s.WithinLimits → step s = .next t → t.WithinLimits

/-- 40_execution_cycle.md R82, 60_exceptions.md R138: Halted, Faulted and Cancelled have no step. -/
def Obligations.TerminalStatesHaveNoStep : Prop :=
  ∀ s : State, s.status ≠ .running → step s = .fault (.terminal s.status)

/-! ### Memory and operands -/

/-- 20_memory.md R34, R33: the write succeeds, reads back, and no other address reads differently. -/
def Obligations.MemoryRoundTrip : Prop :=
  ∀ (s : State) (a v : Int), s.mem.wf = true → 0 ≤ a → admitsAddr s.config a.toNat = true →
    ∃ t, memWrite a v s = .ok t ∧ memRead a t = .ok v ∧ (∀ b, b ≠ a → memRead b t = memRead b s) ∧
      t = { s with mem := t.mem }

/-- 20_memory.md R35, R36: below 0 both accesses raise `AddressFault`, above a finite `ADDR_MAX` `CapacityExceeded`, with the
address as information. -/
def Obligations.ForbiddenAddressesFault : Prop :=
  ∀ (s : State) (a v : Int),
    (a < 0 → memRead a s = .error ⟨.addressFault, a⟩ ∧ memWrite a v s = .error ⟨.addressFault, a⟩) ∧
      (∀ m, s.config.addrMax = some m → (m : Int) < a →
        memRead a s = .error ⟨.capacityExceeded, a⟩ ∧ memWrite a v s = .error ⟨.capacityExceeded, a⟩)

/-- 41_operand_resolution.md R92, R93, R94: the effective address and `load` in the three modes, with no limit on addresses
(the spec's value of `ADDR_MAX`); an Immediate operand has no effective address and makes no memory request. -/
def Obligations.LoadInTheThreeModes : Prop :=
  ∀ (s : State) (raw : Int), s.config.addrMax = none →
    effectiveAddr ⟨raw, .position⟩ s = some raw ∧
      (0 ≤ raw → load ⟨raw, .position⟩ s = .ok (s.mem.read raw.toNat)) ∧
      (raw < 0 → load ⟨raw, .position⟩ s = .error ⟨.addressFault, raw⟩) ∧
      effectiveAddr ⟨raw, .immediate⟩ s = none ∧ operandRequest .load ⟨raw, .immediate⟩ s = [] ∧
      load ⟨raw, .immediate⟩ s = .ok raw ∧
      effectiveAddr ⟨raw, .relative⟩ s = some (s.rb + raw) ∧
      (0 ≤ s.rb + raw → load ⟨raw, .relative⟩ s = .ok (s.mem.read (s.rb + raw).toNat)) ∧
      (s.rb + raw < 0 → load ⟨raw, .relative⟩ s = .error ⟨.addressFault, s.rb + raw⟩)

/-- 41_operand_resolution.md R95, R96, and the first sentence of R97: `store` in the three modes, with no limit on addresses.
The cell written then holds the value and every other cell is as before. -/
def Obligations.StoreInTheThreeModes : Prop :=
  ∀ (s : State) (raw v : Int), s.config.addrMax = none → s.mem.wf = true →
    effectiveAddr ⟨raw, .position⟩ s = some raw ∧
      (0 ≤ raw → ∃ t, store ⟨raw, .position⟩ v s = .ok t ∧ t = { s with mem := t.mem } ∧
        ∀ a : Nat, t.mem.read a = if (a : Int) = raw then v else s.mem.read a) ∧
      (raw < 0 → store ⟨raw, .position⟩ v s = .error ⟨.addressFault, raw⟩) ∧
      store ⟨raw, .immediate⟩ v s = .error ⟨.invalidOperand, raw⟩ ∧
      effectiveAddr ⟨raw, .relative⟩ s = some (s.rb + raw) ∧
      (0 ≤ s.rb + raw → ∃ t, store ⟨raw, .relative⟩ v s = .ok t ∧ t = { s with mem := t.mem } ∧
        ∀ a : Nat, t.mem.read a = if (a : Int) = s.rb + raw then v else s.mem.read a) ∧
      (s.rb + raw < 0 → store ⟨raw, .relative⟩ v s = .error ⟨.addressFault, s.rb + raw⟩)

/-- 42_arithmetic.md R103, 60_exceptions.md R135: with a finite `WORD_BITS` of N = n + 1, a sum or product outside
−2^(N−1) .. 2^(N−1)−1 raises `CapacityExceeded` with the value, in place of the store; so does a new `rb`. That it comes before
the checks of the destination is the model's reading (log entry 8). -/
def Obligations.UnholdableResultsRaiseCapacityExceeded : Prop :=
  ∀ (s : State) (n : Nat) (p1 p2 p3 : Operand) (a b : Int), s.config.wordBits = some n.succPNat → load p1 s = .ok a →
    load p2 s = .ok b →
    ((a + b < -(2 ^ n : Int) ∨ (2 ^ n : Int) - 1 < a + b) →
        exec (.add p1 p2 p3) s =
          .next { s with status := .faulted, faultCode := some .capacityExceeded, faultInfo := some (a + b) }) ∧
      ((a * b < -(2 ^ n : Int) ∨ (2 ^ n : Int) - 1 < a * b) →
        exec (.multiply p1 p2 p3) s =
          .next { s with status := .faulted, faultCode := some .capacityExceeded, faultInfo := some (a * b) }) ∧
      ((s.rb + a < -(2 ^ n : Int) ∨ (2 ^ n : Int) - 1 < s.rb + a) →
        exec (.adjustRelativeBase p1) s =
          .next { s with status := .faulted, faultCode := some .capacityExceeded, faultInfo := some (s.rb + a) })

/-- 60_exceptions.md R135, 42_arithmetic.md R103: "With `WORD_BITS = none` and `ADDR_MAX = none` … it is never raised". -/
def Obligations.CapacityNeverExceededWithoutLimits : Prop :=
  ∀ s t : State, s.config.wordBits = none → s.config.addrMax = none → s.faultCode ≠ some .capacityExceeded →
    step s = .next t → t.faultCode ≠ some .capacityExceeded

/-! ### Encoding -/

/-- The decoder gives back every instruction from its encoding, with whatever follows it: no operand, mode or word is
dropped (30_encoding.md R51, R52, R54). -/
def Obligations.DecodeOfEncode : Prop :=
  ∀ (i : Instr) (rest : List Int), decode (encode i ++ rest) = .ok (i, rest)

/-- Each word sequence that decodes is the encoding of what it decodes to: no two encodings of one instruction
(30_encoding.md R56, R66). -/
def Obligations.EncodeOfDecode : Prop :=
  ∀ (ws rest : List Int) (i : Instr), decode ws = .ok (i, rest) → ws = encode i ++ rest

/-- 30_encoding.md R60, R61, R53, R62, R64 and the order of R67: which opcode words are rejected, and by which name. Digit
`k + 1` of the word is the mode of parameter `k`. -/
def Obligations.OpcodeWordChecks : Prop :=
  (∀ w : Int, w < 0 → decodeHeader w = .error (.invalidOpcode w)) ∧
    ∀ n : Nat,
      (n % 100 ∉ [1, 2, 3, 4, 5, 6, 7, 8, 9, 99] → decodeHeader (n : Int) = .error (.invalidOpcode n)) ∧
        ∀ op : Opcode, n % 100 = op.number →
          (((∃ k ∈ [1, 2, 3], (k ≤ op.arity ∧ 2 < n / 10 ^ (k + 1) % 10) ∨ (op.arity < k ∧ n / 10 ^ (k + 1) % 10 ≠ 0)) ∨
                n / 100000 ≠ 0) →
              decodeHeader (n : Int) = .error (.invalidMode n)) ∧
            (((∀ k ∈ [1, 2, 3], (k ≤ op.arity → n / 10 ^ (k + 1) % 10 ≤ 2) ∧ (op.arity < k → n / 10 ^ (k + 1) % 10 = 0)) ∧
                n / 100000 = 0) →
              ∃ h : Header, decodeHeader (n : Int) = .ok h ∧ h.op = op ∧
                h.m1.digit = n / 100 % 10 ∧ h.m2.digit = n / 1000 % 10 ∧ h.m3.digit = n / 10000 % 10)

/-- 30_encoding.md R56: the opcode words that decode are the 136 of the table, no others; 99 of them give an instruction
whose destination can be stored to, and 37 one whose store raises `InvalidOperand`. -/
def Obligations.LegalOpcodeWords : Prop :=
  completeWords.length = 99 ∧ badStoreWords.length = 37 ∧ (completeWords ++ badStoreWords).Nodup ∧
    (∀ w : Int, (∃ h, decodeHeader w = .ok h) ↔ ∃ n ∈ completeWords ++ badStoreWords, w = (n : Int)) ∧
    ∀ n ∈ completeWords ++ badStoreWords, ∀ h, decodeHeader (n : Int) = .ok h →
      ∀ raws, (h.build raws).destinationOk = decide (n ∈ completeWords)

/-- Words written out from the encodings of 30_encoding.md R54 to R56 decode to the instructions they stand for. -/
def Obligations.HandWrittenWordsDecode : Prop :=
  decode [1002, 4, 3, 4] = .ok (.multiply ⟨4, .position⟩ ⟨3, .immediate⟩ ⟨4, .position⟩, []) ∧
    decode [21001, 11, 1, -1] = .ok (.add ⟨11, .position⟩ ⟨1, .immediate⟩ ⟨-1, .relative⟩, []) ∧
    decode [2107, 1, -2, 3] = .ok (.lessThan ⟨1, .immediate⟩ ⟨-2, .relative⟩ ⟨3, .position⟩, []) ∧
    decode [203, 3, 99] = .ok (.input ⟨3, .relative⟩, [99]) ∧
    decode [2106, 0, 9] = .ok (.jumpIfFalse ⟨0, .immediate⟩ ⟨9, .relative⟩, []) ∧
    decode [109, -5] = .ok (.adjustRelativeBase ⟨-5, .immediate⟩, []) ∧
    decode [99] = .ok (.halt, [])

/-! ### One step -/

/-- 40_execution_cycle.md R77, 45_io.md R117: when the words at `pc` decode to `i`, a step of a Running core without `cancel`
is `exec i`; with `cancel` set it is the step to Cancelled or `exec i`. That it is the former wherever `exec i` has no step is
the model's choice (log entry 7), and that it counts the instruction in `cancelAge` is the model's own (log entry 6). -/
def Obligations.StepRunsDecodedInstruction : Prop :=
  ∀ (s : State) (i : Instr) (rest : List Int), s.status = .running →
    decode [s.mem.read s.pc, s.mem.read (s.pc + 1), s.mem.read (s.pc + 2), s.mem.read (s.pc + 3)] = .ok (i, rest) →
    admitsAddr s.config (s.pc + i.width - 1) = true →
    (s.cancel = false → step s = exec i s) ∧
      (s.cancel = true → step s = .next (takeCancel s) ∨
        (∃ t, exec i { s with cancelAge := s.cancelAge + 1 } = .next t ∧ step s = .next t))

/-- 30_encoding.md R60, R61, with 60_exceptions.md R137: a step at a negative opcode word, or at one whose `opcode` field is
not in the table, takes `InvalidOpcode` with the whole word as information, and changes nothing else; in particular at the
word 0 of an untouched cell. At a word the mode checks reject it takes `InvalidMode` in the same way. -/
def Obligations.IllegalWordStepsToFault : Prop :=
  ∀ (s : State) (w : Int), s.status = .running → s.cancel = false → admitsAddr s.config s.pc = true →
    w = s.mem.read s.pc →
    ((w < 0 ∨ w % 100 ∉ [1, 2, 3, 4, 5, 6, 7, 8, 9, 99]) →
        step s = .next { s with status := .faulted, faultCode := some .invalidOpcode, faultInfo := some w }) ∧
      (decodeHeader w = .error (.invalidMode w) →
        step s = .next { s with status := .faulted, faultCode := some .invalidMode, faultInfo := some w })

/-- 20_memory.md R36, 60_exceptions.md R140, 30_encoding.md R59: with a finite `ADDR_MAX`, a step whose opcode word lies above it
takes `CapacityExceeded` with the address in `pc`; one whose opcode word lies within and passes every check, but whose last
parameter word lies above, takes it with the first address above `ADDR_MAX`, since the words are read in address order.
Nothing else changes. That the fetch is held against `ADDR_MAX` word by word is the model's reading (log entry 8). -/
def Obligations.FetchAboveAddrMaxFaults : Prop :=
  ∀ (s : State) (m : Nat), s.status = .running → s.cancel = false → s.config.addrMax = some m →
    let faulted (a : Nat) : Result :=
      .next { s with status := .faulted, faultCode := some .capacityExceeded, faultInfo := some (a : Int) }
    (m < s.pc → step s = faulted s.pc) ∧
      (s.pc ≤ m → ∀ h, decodeHeader (s.mem.read s.pc) = .ok h → m < s.pc + h.op.arity → step s = faulted (m + 1))

/-! ### The instructions: what they complete with -/

/-- 42_arithmetic.md R100, R101, R102: Add and Multiply complete with the exact sum and product in the destination cell and
`pc + 4`, whenever both loads succeed, the implementation holds the result and the destination is an address. -/
def Obligations.AddAndMultiplyResult : Prop :=
  ∀ (s : State) (p1 p2 p3 : Operand) (a b d : Int), load p1 s = .ok a → load p2 s = .ok b →
    effectiveAddr p3 s = some d → 0 ≤ d → admitsAddr s.config d.toNat = true →
    (s.config.admitsWord (a + b) = true →
        exec (.add p1 p2 p3) s = .next { s with pc := s.pc + 4, mem := s.mem.write d.toNat (a + b) }) ∧
      (s.config.admitsWord (a * b) = true →
        exec (.multiply p1 p2 p3) s = .next { s with pc := s.pc + 4, mem := s.mem.write d.toNat (a * b) })

/-- 43_compare.md R105, R106, R107: LessThan and Equals complete with the integer 1 or 0 in the destination cell and `pc + 4`. -/
def Obligations.LessThanAndEqualsResult : Prop :=
  ∀ (s : State) (p1 p2 p3 : Operand) (a b d : Int), load p1 s = .ok a → load p2 s = .ok b →
    effectiveAddr p3 s = some d → 0 ≤ d → admitsAddr s.config d.toNat = true → s.config.admitsWord 0 = true →
    s.config.admitsWord 1 = true →
    (a < b → exec (.lessThan p1 p2 p3) s = .next { s with pc := s.pc + 4, mem := s.mem.write d.toNat 1 }) ∧
      (b ≤ a → exec (.lessThan p1 p2 p3) s = .next { s with pc := s.pc + 4, mem := s.mem.write d.toNat 0 }) ∧
      (a = b → exec (.equals p1 p2 p3) s = .next { s with pc := s.pc + 4, mem := s.mem.write d.toNat 1 }) ∧
      (a ≠ b → exec (.equals p1 p2 p3) s = .next { s with pc := s.pc + 4, mem := s.mem.write d.toNat 0 })

/-- 44_jumps.md R110, R111, R113: the jumps complete with the target, or with `pc + 3` without loading the second operand. -/
def Obligations.JumpResult : Prop :=
  ∀ (s : State) (p1 p2 : Operand) (c : Int), load p1 s = .ok c →
    (∀ g, c ≠ 0 → load p2 s = .ok g → 0 ≤ g → exec (.jumpIfTrue p1 p2) s = .next { s with pc := g.toNat }) ∧
      (c = 0 → exec (.jumpIfTrue p1 p2) s = .next { s with pc := s.pc + 3 }) ∧
      (∀ g, c = 0 → load p2 s = .ok g → 0 ≤ g → exec (.jumpIfFalse p1 p2) s = .next { s with pc := g.toNat }) ∧
      (c ≠ 0 → exec (.jumpIfFalse p1 p2) s = .next { s with pc := s.pc + 3 })

/-- 45_io.md R115: Input completes with the front value of the input channel in the destination cell and `pc + 2`. -/
def Obligations.InputResult : Prop :=
  ∀ (s : State) (p1 : Operand) (v : Int) (q : List Int) (d : Int), s.inChan = v :: q → s.config.admitsWord v = true →
    effectiveAddr p1 s = some d → 0 ≤ d → admitsAddr s.config d.toNat = true →
    exec (.input p1) s = .next { s with pc := s.pc + 2, mem := s.mem.write d.toNat v, inChan := q }

/-- 45_io.md R116, R119: Output completes with the loaded value at the back of the output channel and `pc + 2`; with
unbounded channels (the spec's value) it never waits. That a value outside a finite `WORD_BITS` is emitted whole too is the
model's reading (log entry 8). -/
def Obligations.OutputResult : Prop :=
  ∀ (s : State) (p1 : Operand) (v : Int), load p1 s = .ok v →
    (s.config.chanDepth = none ∨ ∃ n : ℕ+, s.config.chanDepth = some n ∧ s.outChan.length < (n : Nat)) →
    exec (.output p1) s = .next { s with pc := s.pc + 2, outChan := s.outChan ++ [v] }

/-- 46_system.md R125, 41_operand_resolution.md R91: AdjustRelativeBase completes with the value, loaded at the old base,
added to `rb`, and `pc + 2`. -/
def Obligations.AdjustRelativeBaseResult : Prop :=
  ∀ (s : State) (p1 : Operand) (v : Int), load p1 s = .ok v → s.config.admitsWord (s.rb + v) = true →
    exec (.adjustRelativeBase p1) s = .next { s with pc := s.pc + 2, rb := s.rb + v }

/-- 46_system.md R126, 40_execution_cycle.md R83: Halt completes with `status` Halted and nothing else changed. -/
def Obligations.HaltResult : Prop := ∀ s : State, exec .halt s = .next { s with status := .halted }

/-! ### The instructions: where they fault or wait -/

/-- 60_exceptions.md R140, R137: the order of the faults of Add, Multiply, LessThan and Equals: load p1, load p2, the result
against a finite `WORD_BITS`, an Immediate destination, a negative destination address, one above a finite `ADDR_MAX`. The
fault is taken with the core otherwise unchanged. The place of the check against `WORD_BITS` is the model's reading (log
entry 8). -/
def Obligations.ThreeParameterFaultOrder : Prop :=
  ∀ (s : State) (p1 p2 p3 : Operand) (i : Instr) (f : Int → Int → Int),
    ((i = .add p1 p2 p3 ∧ f = fun a b => a + b) ∨ (i = .multiply p1 p2 p3 ∧ f = fun a b => a * b) ∨
      (i = .lessThan p1 p2 p3 ∧ f = fun a b => if a < b then 1 else 0) ∨
      (i = .equals p1 p2 p3 ∧ f = fun a b => if a = b then 1 else 0)) →
    let faulted (code : FaultCode) (info : Int) : Result :=
      .next { s with status := .faulted, faultCode := some code, faultInfo := some info }
    (∀ e, load p1 s = .error e → exec i s = faulted e.code e.info) ∧
      ∀ a, load p1 s = .ok a →
        (∀ e, load p2 s = .error e → exec i s = faulted e.code e.info) ∧
          ∀ b, load p2 s = .ok b →
            (s.config.admitsWord (f a b) = false → exec i s = faulted .capacityExceeded (f a b)) ∧
              (s.config.admitsWord (f a b) = true →
                (p3.mode = .immediate → exec i s = faulted .invalidOperand p3.raw) ∧
                  ∀ d, effectiveAddr p3 s = some d →
                    (d < 0 → exec i s = faulted .addressFault d) ∧
                      (0 ≤ d → admitsAddr s.config d.toNat = false → exec i s = faulted .capacityExceeded d))

/-- 44_jumps.md R110 to R113: where the jumps fault: the condition's load, and, only when the jump is taken, the target's load
and a negative target; `pc` stays at the jump. -/
def Obligations.JumpFaults : Prop :=
  ∀ (s : State) (p1 p2 : Operand),
    let faulted (code : FaultCode) (info : Int) : Result :=
      .next { s with status := .faulted, faultCode := some code, faultInfo := some info }
    (∀ e, load p1 s = .error e →
        exec (.jumpIfTrue p1 p2) s = faulted e.code e.info ∧ exec (.jumpIfFalse p1 p2) s = faulted e.code e.info) ∧
      (∀ c e, load p1 s = .ok c → load p2 s = .error e →
        (c ≠ 0 → exec (.jumpIfTrue p1 p2) s = faulted e.code e.info) ∧
          (c = 0 → exec (.jumpIfFalse p1 p2) s = faulted e.code e.info)) ∧
      ∀ c g, load p1 s = .ok c → load p2 s = .ok g → g < 0 →
        (c ≠ 0 → exec (.jumpIfTrue p1 p2) s = faulted .addressFault g) ∧
          (c = 0 → exec (.jumpIfFalse p1 p2) s = faulted .addressFault g)

/-- 45_io.md R117, R115, 41_operand_resolution.md R97: Input has no step on an empty channel, whatever its operand; with a
value there, a value outside a finite `WORD_BITS`, an Immediate destination, a negative one or one above a finite `ADDR_MAX`
faults after the value is taken: the value is lost, memory and `pc` stay. The place of the two checks against finite limits is
the model's reading (log entry 8). -/
def Obligations.InputWaitsOrFaultsAfterTaking : Prop :=
  ∀ (s : State) (p1 : Operand),
    (s.inChan = [] → exec (.input p1) s = .fault .blockedOnInput) ∧
      ∀ v q, s.inChan = v :: q →
        let faulted (code : FaultCode) (info : Int) : Result :=
          .next { s with inChan := q, status := .faulted, faultCode := some code, faultInfo := some info }
        (s.config.admitsWord v = false → exec (.input p1) s = faulted .capacityExceeded v) ∧
          (s.config.admitsWord v = true →
            (p1.mode = .immediate → exec (.input p1) s = faulted .invalidOperand p1.raw) ∧
              ∀ d, effectiveAddr p1 s = some d →
                (d < 0 → exec (.input p1) s = faulted .addressFault d) ∧
                  (0 ≤ d → admitsAddr s.config d.toNat = false → exec (.input p1) s = faulted .capacityExceeded d))

/-- 45_io.md R116, R119, 46_system.md R125: a failed load of Output or AdjustRelativeBase is taken with nothing emitted and
`rb` unchanged; a full channel of finite `CHAN_DEPTH` leaves Output without a step, whatever the value loaded (log entries 8
and 9). -/
def Obligations.OutputAndAdjustFaults : Prop :=
  ∀ (s : State) (p1 : Operand),
    (∀ e, load p1 s = .error e →
      exec (.output p1) s = .next { s with status := .faulted, faultCode := some e.code, faultInfo := some e.info } ∧
        exec (.adjustRelativeBase p1) s =
          .next { s with status := .faulted, faultCode := some e.code, faultInfo := some e.info }) ∧
      ∀ (v : Int) (n : ℕ+), load p1 s = .ok v → s.config.chanDepth = some n → (n : Nat) ≤ s.outChan.length →
        exec (.output p1) s = .fault .blockedOnOutput

/-- 45_io.md R117, R119, 60_exceptions.md R148: no lost wake-up. An Input that waits has a step as soon as a value is supplied,
and takes that value, be it outside a finite `WORD_BITS` (then with a fault, log entries 8 and 28); an Output that waits on a
channel filled to its finite depth (log entry 9) has one as soon as the consumer has taken a value, whatever the value it emits
(log entry 8). -/
def Obligations.WaitingInstructionsWakeUp : Prop :=
  ∀ (s : State) (p1 : Operand),
    (∀ v, exec (.input p1) s = .fault .blockedOnInput →
      ∃ t, exec (.input p1) (supply v s) = .next t ∧ t.inChan = []) ∧
      ∀ (n : ℕ+) (v : Int) (u : State), s.config.chanDepth = some n → s.outChan.length ≤ (n : Nat) →
        exec (.output p1) s = .fault .blockedOnOutput → collect s = some (v, u) →
        ∃ x, load p1 s = .ok x ∧ exec (.output p1) u = .next { s with pc := s.pc + 2, outChan := s.outChan.tail ++ [x] }

/-- 45_io.md R119: a finite `CHAN_DEPTH` only takes steps of Output away: an instruction that has its step at a finite depth has
the same one with unbounded channels; and an instruction that has a step with unbounded channels has the same one at a finite
depth, unless it is an Output at a full channel, which then waits (log entry 9). -/
def Obligations.FiniteDepthOnlyTakesStepsAway : Prop :=
  ∀ (i : Instr) (s : State),
    let unbounded : State := { s with config := { s.config with chanDepth := none } }
    (∀ t, exec i s = .next t → exec i unbounded = .next { t with config := { t.config with chanDepth := none } }) ∧
      ∀ u, exec i unbounded = .next u →
        exec i s = .next { u with config := s.config } ∨
          ∃ (p : Operand) (n : ℕ+), i = .output p ∧ s.config.chanDepth = some n ∧ (n : Nat) ≤ s.outChan.length ∧
            exec i s = .fault .blockedOnOutput

/-! ### Frames -/

/-- What Add, Multiply, LessThan and Equals leave unchanged (42_arithmetic.md R100, 43_compare.md R105): everything but `pc`
and the destination cell when they complete, everything but `status` and the fault record when they fault. -/
def Obligations.ThreeParameterFrame : Prop :=
  ∀ (s t : State) (p1 p2 p3 : Operand) (i : Instr),
    (i = .add p1 p2 p3 ∨ i = .multiply p1 p2 p3 ∨ i = .lessThan p1 p2 p3 ∨ i = .equals p1 p2 p3) →
    s.mem.wf = true → exec i s = .next t →
    t.rb = s.rb ∧ t.inChan = s.inChan ∧ t.outChan = s.outChan ∧ t.cancel = s.cancel ∧ t.cancelAge = s.cancelAge ∧
      t.cancelDraw = s.cancelDraw ∧ t.config = s.config ∧
      ((t.status = s.status ∧ t.faultCode = s.faultCode ∧ t.faultInfo = s.faultInfo) ∨
        (t.status = .faulted ∧ t.pc = s.pc ∧ t.mem = s.mem)) ∧
      (∀ d, effectiveAddr p3 s = some d → ∀ a : Nat, (a : Int) ≠ d → t.mem.read a = s.mem.read a) ∧
      (effectiveAddr p3 s = none → ∀ a, t.mem.read a = s.mem.read a)

/-- What Input leaves unchanged (45_io.md R115): everything but `pc`, the destination cell and the front value taken from the
input channel; on a fault everything but `status`, the fault record and that value. -/
def Obligations.InputFrame : Prop :=
  ∀ (s t : State) (p1 : Operand), s.mem.wf = true → exec (.input p1) s = .next t →
    t.rb = s.rb ∧ (∃ v, s.inChan = v :: t.inChan) ∧ t.outChan = s.outChan ∧ t.cancel = s.cancel ∧
      t.cancelAge = s.cancelAge ∧ t.cancelDraw = s.cancelDraw ∧ t.config = s.config ∧
      ((t.status = s.status ∧ t.faultCode = s.faultCode ∧ t.faultInfo = s.faultInfo) ∨
        (t.status = .faulted ∧ t.pc = s.pc ∧ t.mem = s.mem)) ∧
      (∀ d, effectiveAddr p1 s = some d → ∀ a : Nat, (a : Int) ≠ d → t.mem.read a = s.mem.read a) ∧
      (effectiveAddr p1 s = none → ∀ a, t.mem.read a = s.mem.read a)

/-- What the instructions that store nothing leave unchanged (44_jumps.md R110, R111, 45_io.md R116, 46_system.md R125,
R126): every cell of memory, the input channel, and all but `pc` and the one element the instruction writes; on a fault
everything but `status` and the fault record. -/
def Obligations.StorelessFrame : Prop :=
  ∀ (s t : State) (i : Instr), i.destination = none → exec i s = .next t →
    (∀ a, t.mem.read a = s.mem.read a) ∧ t.inChan = s.inChan ∧ t.cancel = s.cancel ∧ t.cancelAge = s.cancelAge ∧
      t.cancelDraw = s.cancelDraw ∧ t.config = s.config ∧
      ((∀ p, i ≠ .output p) → t.outChan = s.outChan) ∧
      ((∀ p, i ≠ .adjustRelativeBase p) → t.rb = s.rb) ∧
      ((i ≠ .halt ∧ t.status = s.status ∧ t.faultCode = s.faultCode ∧ t.faultInfo = s.faultInfo) ∨
        (i = .halt ∧ t.status = .halted ∧ t.pc = s.pc ∧ t.faultCode = s.faultCode ∧ t.faultInfo = s.faultInfo) ∨
        (i ≠ .halt ∧ t.status = .faulted ∧ t.pc = s.pc ∧ t.outChan = s.outChan ∧ t.rb = s.rb))

/-! ### Rules of the whole machine -/

/-- 60_exceptions.md R137, 40_execution_cycle.md R80, 45_io.md R115: faults are precise. A step that ends Faulted records a
code and an information and leaves `pc`, `rb`, `Mem`, the output channel, `cancel` and the parameters as they were, and the
input channel too, but for the one value an Input at `pc` has taken. (The model's counter `cancelAge` may grow under `cancel`,
log entry 6.) -/
def Obligations.FaultsArePrecise : Prop :=
  ∀ s t : State, step s = .next t → t.status = .faulted →
    t.faultCode.isSome = true ∧ t.faultInfo.isSome = true ∧ t.pc = s.pc ∧ t.rb = s.rb ∧ t.mem = s.mem ∧
      t.outChan = s.outChan ∧ t.cancel = s.cancel ∧ t.config = s.config ∧
      (t.inChan = s.inChan ∨ ∃ p v, fetchInstr s = .ok (.input p) ∧ s.inChan = v :: t.inChan)

/-- 10_state.md R15: the transitions of `status`. Steps leave Running only; Halted is entered by opcode 99 only, Faulted by a
fault only, Cancelled under `cancel` only, and Halt always halts a core whose `cancel` is clear. -/
def Obligations.StatusTransitions : Prop :=
  ∀ s t : State, step s = .next t →
    s.status = .running ∧ (t.status = .halted → fetchInstr s = .ok .halt) ∧
      (t.status = .faulted → t.faultCode.isSome = true ∧ t.faultInfo.isSome = true) ∧
      (t.status = .cancelled → s.cancel = true) ∧ t.cancel = s.cancel ∧
      (t.status ≠ .faulted → t.faultCode = s.faultCode ∧ t.faultInfo = s.faultInfo) ∧
      (fetchInstr s = .ok .halt → s.cancel = false → t.status = .halted)

/-- 10_state.md R14, 46_system.md R125: only AdjustRelativeBase writes `rb`. -/
def Obligations.OnlyAdjustRelativeBaseWritesRb : Prop :=
  ∀ s t : State, step s = .next t → t.rb ≠ s.rb →
    ∃ p v, fetchInstr s = .ok (.adjustRelativeBase p) ∧ load p s = .ok v ∧ t.rb = s.rb + v

/-- 40_execution_cycle.md R78: the next `pc` of a step after which the core still runs. -/
def Obligations.NextProgramCounter : Prop :=
  ∀ s t : State, step s = .next t → t.status = .running →
    ∃ i, fetchInstr s = .ok i ∧
      match i with
      | .add _ _ _ => t.pc = s.pc + 4
      | .multiply _ _ _ => t.pc = s.pc + 4
      | .input _ => t.pc = s.pc + 2
      | .output _ => t.pc = s.pc + 2
      | .jumpIfTrue p1 p2 => ∃ c, load p1 s = .ok c ∧ if c ≠ 0 then load p2 s = .ok (t.pc : Int) else t.pc = s.pc + 3
      | .jumpIfFalse p1 p2 => ∃ c, load p1 s = .ok c ∧ if c = 0 then load p2 s = .ok (t.pc : Int) else t.pc = s.pc + 3
      | .lessThan _ _ _ => t.pc = s.pc + 4
      | .equals _ _ _ => t.pc = s.pc + 4
      | .adjustRelativeBase _ => t.pc = s.pc + 2
      | .halt => False

/-- 10_state.md R15, R16: no instruction reads `status` or the fault record: with any other values there, an instruction does
the same to every other element, or waits the same; and what it does to these three is the same: it leaves all as they were, or,
being Halt, makes `status` Halted and leaves the record, or takes the same fault. -/
def Obligations.NoInstructionReadsStatusOrFaultRecord : Prop :=
  ∀ (i : Instr) (s : State) (st : Status) (code : Option FaultCode) (info : Option Int),
    let s' : State := { s with status := st, faultCode := code, faultInfo := info }
    (∀ t, exec i s = .next t → ∃ t', exec i s' = .next t' ∧
        t' = { t with status := t'.status, faultCode := t'.faultCode, faultInfo := t'.faultInfo } ∧
        ((i ≠ .halt ∧ t.status = s.status ∧ t.faultCode = s.faultCode ∧ t.faultInfo = s.faultInfo ∧
            t'.status = st ∧ t'.faultCode = code ∧ t'.faultInfo = info) ∨
          (i = .halt ∧ t.status = .halted ∧ t.faultCode = s.faultCode ∧ t.faultInfo = s.faultInfo ∧
            t'.status = .halted ∧ t'.faultCode = code ∧ t'.faultInfo = info) ∨
          (i ≠ .halt ∧ t.status = .faulted ∧ t.faultCode.isSome = true ∧ t.faultInfo.isSome = true ∧
            t'.status = .faulted ∧ t'.faultCode = t.faultCode ∧ t'.faultInfo = t.faultInfo))) ∧
      ∀ r, exec i s = .fault r → exec i s' = .fault r

/-- 45_io.md R121, R118: an instruction other than Input neither reads nor changes the input channel, whatever it holds. -/
def Obligations.OnlyInputTouchesTheInputChannel : Prop :=
  ∀ (i : Instr) (s : State) (q : List Int), (∀ p, i ≠ .input p) →
    (∀ t, exec i s = .next t → t.inChan = s.inChan ∧ exec i { s with inChan := q } = .next { t with inChan := q }) ∧
      ∀ r, exec i s = .fault r → exec i { s with inChan := q } = .fault r

/-- 20_memory.md R45, 70_reset_and_hazards.md R181: a store is seen by the very next fetch. After an instruction that stores
`v` at `d`, the cell reads `v`, and if `d` is the new `pc` the decoder meets `v` as the next opcode word. -/
def Obligations.StoreIsSeenByTheNextFetch : Prop :=
  ∀ (s t : State) (i : Instr) (p : Operand) (d v : Int), s.mem.wf = true → i.destination = some p →
    effectiveAddr p s = some d → storedValue i s = some v → s.status = .running → exec i s = .next t →
    t.status = .running →
    memRead d t = .ok v ∧
      ((t.pc : Int) = d → ∀ r, decodeHeader v = .error r → fetchInstr t = .error (raisedOf v r)) ∧
      ((t.pc : Int) = d → v = 99 → fetchInstr t = .ok .halt)

/-- 20_memory.md R42, its table: where the instruction at `pc` is fetched and none of its accesses faults, the requests are the
fetch reads of its words from `pc` on, then the read for p1 and then for p2 where they are sources in memory (for a jump p2
only when it is taken), then the write of its destination, each at its effective address. In every state, faults or not, they
are at most four consecutive fetch reads from `pc` on, then at most two operand reads, then at most one write. -/
def Obligations.RequestsFollowTheArbiterOrder : Prop :=
  ∀ s : State,
    (∀ i, fetchInstr s = .ok i →
      let sources : List Operand :=
        match i with
        | .add p1 p2 _ => [p1, p2]
        | .multiply p1 p2 _ => [p1, p2]
        | .input _ => []
        | .output p1 => [p1]
        | .jumpIfTrue p1 p2 => if load p1 s = .ok 0 then [p1] else [p1, p2]
        | .jumpIfFalse p1 p2 => if load p1 s = .ok 0 then [p1, p2] else [p1]
        | .lessThan p1 p2 _ => [p1, p2]
        | .equals p1 p2 _ => [p1, p2]
        | .adjustRelativeBase p1 => [p1]
        | .halt => []
      let addresses (ps : List Operand) : List Nat := ps.filterMap fun p => (effectiveAddr p s).map Int.toNat
      (∀ p ∈ sources, ∃ v, load p s = .ok v) →
      (∀ p, i.destination = some p → ∃ v t, storedValue i s = some v ∧ store p v s = .ok t) →
      requests s = (List.range' s.pc i.width).map .fetch ++ (addresses sources).map .load ++
        (addresses i.destination.toList).map .store) ∧
      ∃ fetches loads stores : List Nat,
        requests s = fetches.map .fetch ++ loads.map .load ++ stores.map .store ∧
          fetches = List.range' s.pc fetches.length ∧ fetches.length ≤ 4 ∧ loads.length ≤ 2 ∧ stores.length ≤ 1

/-- 20_memory.md R33, R42, R43: a step changes no cell but the one its write request names. -/
def Obligations.OnlyRequestedWritesChangeMemory : Prop :=
  ∀ s t : State, s.mem.wf = true → step s = .next t → ∀ a, Access.store a ∉ requests s → t.mem.read a = s.mem.read a

/-- 60_exceptions.md R142: the step to Cancelled changes `status` alone; it is taken when it is due and wherever a core under
`cancel` is blocked (the latter is the model's choice, log entry 7); without `cancel` it is never taken. -/
def Obligations.CancellationStep : Prop :=
  ∀ s : State, s.status = .running →
    (s.cancel = true → Config.cancelGrace s.cancelDraw ≤ s.cancelAge → step s = .next { s with status := .cancelled }) ∧
      (s.cancel = true → s.blocked → step s = .next { s with status := .cancelled }) ∧
      (s.cancel = false → ∀ t, step s = .next t → t.status ≠ .cancelled) ∧
      (s.cancel = false → s.blocked → ∀ t, step s ≠ .next t)

/-- 60_exceptions.md R142 ("must not run or wait for ever once `cancel` is set"), with the model's free bound (log entry 6) and
its choice that a blocked core takes the step to Cancelled at once (log entry 7):
a Running core under `cancel` is terminal after finitely many steps, whatever program it runs. -/
def Obligations.CancelledCoreEndsInFinitelyManySteps : Prop :=
  ∀ s : State, s.status = .running → s.cancel = true →
    ∃ k, k ≤ Config.cancelGrace s.cancelDraw - s.cancelAge + 1 ∧
      ∃ t : State, Host.Core.run Sys2Proof.core k s = .next t ∧ t.status ≠ .running

/-- 40_execution_cycle.md R77, R82, R84: each step the model takes is one the spec allows, and it takes one exactly where the
spec allows one. Which of two allowed steps is taken under `cancel` is free (log entry 6), but for a blocked core (log entry
7). -/
def Obligations.StepRefinesTheAllowedTransitions : Prop :=
  ∀ s : State, (∀ t, step s = .next t → Transition s t) ∧ ((∃ t, Transition s t) → ∃ t, step s = .next t)

/-! ### The platform -/

/-- 70_reset_and_hazards.md R172, 30_encoding.md R69: the text of an image, with or without a line ending, loads as the image;
the empty image has no text. That a line ending is LF is presumed (log entry 15). -/
def Obligations.ProgramTextRoundTrip : Prop :=
  (∀ image : List Int, image ≠ [] →
    parseText (renderText image) = some image ∧ parseText (renderText image ++ ['\n']) = some image) ∧
    parseText [] = none

/-- 60_exceptions.md R150, R151: a built pipeline has one instance per phase, each with its own copy of the image at its reset
values, channel i holding its phase and channel 0 the phase and then the initial input. That it is so at finite limits too is the
model's choice (log entries 22, 23 and 28), and so is the pipeline without instances where there are no phases (log entry
26). -/
def Obligations.PipelineSeeding : Prop :=
  ∀ (c : Config) (image : List Int) (x0 : Int) (phases : List Int),
    let p := Pipeline.build c image x0 phases
    p.insts.length = phases.length ∧
      (∀ (i : Nat) (h : i < phases.length), channel p i = if i = 0 then [phases[i], x0] else [phases[i]]) ∧
      ∀ s ∈ p.insts, s.pc = 0 ∧ s.rb = 0 ∧ s.status = .running ∧ s.faultCode = none ∧ s.faultInfo = none ∧
        s.mem = Memory.ofImage image ∧ s.cancel = false ∧ s.config = c

/-- 60_exceptions.md R150, R148, R152, R156, 45_io.md R117: what a step of a pipeline does. Where a Running instance `i`, with the
two channels of the ring at its ports, has the next state `t`, the step is possible: `i` becomes `t`, all that `t` emitted is
moved, in order, to the back of channel (i+1) mod N (which for N = 1 is channel i), and every other instance is as it was; and
where an instance then is Faulted, `cancel` is set for every one (in the same transition by the model's choice, log entry 17).
The step to Cancelled of a Running instance under `cancel` changes its `status` alone (R142). An instance that does not exist or is
not Running has neither step; without `cancel` it has no step to Cancelled, and while it waits it runs no instruction. -/
def Obligations.PipelineStepEffect : Prop :=
  ∀ (p : Pipeline) (i : Nat),
    (∀ s t, view p i = some s → s.status = .running → runInstruction s = .next t →
      let j := outIndex p.insts.length i
      ∃ emitted q, t.outChan = channel p j ++ emitted ∧ p.step (.run i) = some q ∧ q.insts.length = p.insts.length ∧
        ∀ (k : Nat) (u : State), p.insts[k]? = some u →
          let moved : State := if k = i then { t with outChan := [] } else u
          let after : State := if k = j then { moved with inChan := moved.inChan ++ emitted } else moved
          ((∃ f ∈ q.insts, f.status = .faulted) → q.insts[k]? = some (raiseCancel after)) ∧
            ((∀ f ∈ q.insts, f.status ≠ .faulted) → q.insts[k]? = some after)) ∧
      (∀ s, p.insts[i]? = some s → s.status = .running → s.cancel = true →
        p.step (.cancel i) = some ⟨p.insts.set i { s with status := .cancelled }⟩) ∧
      (p.insts[i]? = none → p.step (.run i) = none ∧ p.step (.cancel i) = none) ∧
      (∀ s, p.insts[i]? = some s → s.status ≠ .running → p.step (.run i) = none ∧ p.step (.cancel i) = none) ∧
      (∀ s, p.insts[i]? = some s → s.cancel = false → p.step (.cancel i) = none) ∧
      ∀ s r, view p i = some s → runInstruction s = .fault r → p.step (.run i) = none

/-- 60_exceptions.md R153, R148, R156, 10_state.md R22: a step of one instance changes nothing of another but the content of
the channel it writes, to whose back it appends, and, where an instance is Faulted, its `cancel`, which the platform sets (in
the same transition by the model's choice, log entry 17; setting it touches the model's two counters, log entry 6). -/
def Obligations.PipelineIsolation : Prop :=
  ∀ (p q : Pipeline) (ch : Choice), p.step ch = some q →
    q.insts.length = p.insts.length ∧
      ∀ (j : Nat) (s : State), j ≠ ch.index → p.insts[j]? = some s →
        ∃ sent : List Int, (sent ≠ [] → j = outIndex p.insts.length ch.index) ∧
          (q.insts[j]? = some { s with inChan := s.inChan ++ sent } ∨
            ((∃ u ∈ q.insts, u.status = .faulted) ∧
              q.insts[j]? = some (raiseCancel { s with inChan := s.inChan ++ sent })))

/-- 60_exceptions.md R156: from the build on, whenever some instance is Faulted, `cancel` is set for every instance. That
it is set in the very transition that faults is the model's choice (log entry 17). (The build at finite limits is log entries 22, 23
and 28.) -/
def Obligations.PipelineFaultSetsCancelEverywhere : Prop :=
  (∀ c image x0 phases, (Pipeline.build c image x0 phases).CancelCoversFaults) ∧
    ∀ (p q : Pipeline) (ch : Choice), p.CancelCoversFaults → p.step ch = some q → q.CancelCoversFaults

/-- 60_exceptions.md R152, R154, R142: steps of different instances commute, whether they are instructions or steps to
Cancelled, so that the order in which a schedule takes two enabled steps cannot be seen. (R154 gives the property as one to
prove, not to build in.) -/
def Obligations.PipelineStepsCommute : Prop :=
  ∀ (p q r : Pipeline) (a b : Choice), a.index ≠ b.index → p.step a = some q → p.step b = some r →
    ∃ u, q.step b = some u ∧ r.step a = some u

/-- 45_io.md R119 (of back-pressure between a producer and its consumer): at any finite `CHAN_DEPTH`, when an instance waits at an
Output, the consumer of that channel, while it is Running, can step or waits at an Output itself: it never waits at an Input.
(It may wait at an Output for that very producer, where both channels between them are full, log entry 9.) And where no
instance has ended, a deadlock (60_exceptions.md R157) is either the one that unbounded channels have too, every instance waiting
at an Input, or the whole ring waiting at Outputs. -/
def Obligations.BlockedOutputsMeetNoBlockedInput : Prop :=
  (∀ (p : Pipeline) (i : Nat) (s u : State), view p i = some s → s.status = .running →
    runInstruction s = .fault .blockedOnOutput → view p (outIndex p.insts.length i) = some u → u.status = .running →
    (∃ q, p.step (.run (outIndex p.insts.length i)) = some q) ∨ runInstruction u = .fault .blockedOnOutput) ∧
    ∀ p : Pipeline, p.deadlocked → (∀ s ∈ p.insts, s.status = .running) →
      (∀ i s, view p i = some s → runInstruction s = .fault .blockedOnInput) ∨
        (∀ i s, view p i = some s → runInstruction s = .fault .blockedOnOutput)

/-- 60_exceptions.md R155, R156: the outcome the model reports for a pipeline whose instances meet the invariant is one the
spec allows, and only a joined pipeline has one; and a joined pipeline has one wherever every instance is Halted or one is
Faulted. Which of several faulted instances is named is the model's choice (log entry 18), and so is that the pipelines left
have none (log entry 21) and that a pipeline of no instances has NoResult (log entry 26). -/
def Obligations.PipelineOutcomeIsAllowed : Prop :=
  ∀ p : Pipeline, (∀ s ∈ p.insts, s.Inv) →
    (∀ o, p.outcome = some o → p.joined = true ∧ Reports p o) ∧
      (p.joined = true → ((∀ s ∈ p.insts, s.status = .halted) ∨ ∃ s ∈ p.insts, s.status = .faulted) →
        ∃ o, p.outcome = some o)

/-- 60_exceptions.md R158: the search selects a permutation exactly where every run has a value and that one's is the largest,
the first seen of equals; it stops with an outcome exactly where that is no value and every earlier run has one; it never ends
exactly where it comes to a run that never ends; and it has no other end. That this is so of an empty range too, which has the one
empty permutation to run, is the model's choice (log entry 26). -/
def Obligations.SearchSelectsTheFirstMaximum : Prop :=
  ∀ (runOf : List Int → Option Outcome) (range : List Int),
    (∀ phases v, search runOf range = some (.selected phases v) ↔
      ∃ before after, permutations range = before ++ phases :: after ∧ runOf phases = some (.value v) ∧
        (∀ x ∈ before, ∃ w, runOf x = some (.value w) ∧ w < v) ∧
        ∀ x ∈ after, ∃ w, runOf x = some (.value w) ∧ w ≤ v) ∧
      ((∀ x ∈ permutations range, ∃ w, runOf x = some (.value w)) →
        ∃ phases v, search runOf range = some (.selected phases v)) ∧
      (∀ o, search runOf range = some (.stopped o) ↔
        (∀ v, o ≠ .value v) ∧
          ∃ before phases after, permutations range = before ++ phases :: after ∧ runOf phases = some o ∧
            ∀ x ∈ before, ∃ w, runOf x = some (.value w)) ∧
      (search runOf range = none ↔
        ∃ before phases after, permutations range = before ++ phases :: after ∧ runOf phases = none ∧
          ∀ x ∈ before, ∃ w, runOf x = some (.value w)) ∧
      search runOf range ≠ some .nothing

/-- 60_exceptions.md R158, R155 to R157: where the outcomes are those of a program's pipelines, the search ends with a value
that some schedule of the selected pipeline leaves in channel 0, all its instances Halted; it stops with an outcome that some
schedule of a pipeline may report; and where it never ends, there is a pipeline that no schedule brings to an end. (Pipelines are
built by the model's choice at finite limits, log entries 22, 23 and 28, and for an empty range, log entry 26.) -/
def Obligations.SearchIsTiedToTheRuns : Prop :=
  ∀ (c : Config) (image : List Int) (x0 : Int) (range : List Int) (runOf : List Int → Option Outcome),
    RunsOf c image x0 range runOf →
    let ends (phases : List Int) (p : Pipeline) : Prop :=
      ∃ schedule, Pipeline.runSchedule schedule (Pipeline.build c image x0 phases) = some p
    (∀ phases v, search runOf range = some (.selected phases v) →
      phases.Perm range ∧
        ∃ p, ends phases p ∧ (∀ s ∈ p.insts, s.status = .halted) ∧ ∃ q, channel p 0 = v :: q) ∧
      (∀ o, search runOf range = some (.stopped o) → ∃ phases p, phases.Perm range ∧ ends phases p ∧ Reports p o) ∧
      (search runOf range = none → ∃ phases, phases.Perm range ∧ ∀ p, ends phases p → p.joined = false)

/-- 60_exceptions.md R158: the search enumerates every permutation of the range, and in lexicographic order, each once, where
its values differ, in whatever order the range is given. (For an empty range that is the empty permutation, log entry 26.) -/
def Obligations.PermutationsAreComplete : Prop :=
  ∀ range : List Int,
    (∀ l, l ∈ permutations range ↔ l.Perm range) ∧
      (range.Nodup → (permutations range).Pairwise (List.Lex (· < ·)))
end

