-- ==== Sys2Proof/Laws/Decode.lean ====
section
/-! SUPPORT. The decoder and the encoder, field by field, and which opcode words are accepted. -/

namespace Sys2Proof

theorem Opcode.ofNumber_number (op : Opcode) : Opcode.ofNumber op.number = some op := by cases op <;> rfl

theorem Opcode.number_of_ofNumber {n : Nat} {op : Opcode} (h : Opcode.ofNumber n = some op) : n = op.number := by
  unfold Opcode.ofNumber at h; split at h <;> simp at h <;> subst h <;> rfl

theorem Opcode.number_lt (op : Opcode) : op.number < 100 := by cases op <;> decide

theorem Mode.ofDigit_digit (m : Mode) : Mode.ofDigit m.digit = some m := by cases m <;> rfl

theorem Mode.digit_of_ofDigit {d : Nat} {m : Mode} (h : Mode.ofDigit d = some m) : d = m.digit := by
  unfold Mode.ofDigit at h; split at h <;> simp at h <;> subst h <;> rfl

theorem Mode.digit_lt (m : Mode) : m.digit < 3 := by cases m <;> decide

/-- The mode digit of parameter `k` is accepted as `m`: it is `m`'s digit, and 0 for a parameter the opcode lacks. -/
theorem modeOf_some {op : Opcode} {k n : Nat} {m : Mode} :
    modeOf op k n = some m ↔ modeDigit k n = m.digit ∧ (op.arity < k → m = .position) := by
  unfold modeOf
  split
  · constructor
    · intro h; exact ⟨Mode.digit_of_ofDigit h, fun h' => by omega⟩
    · rintro ⟨h, _⟩; rw [h, Mode.ofDigit_digit]
  · split
    · next h =>
      constructor
      · rintro ⟨⟩; exact ⟨h, fun _ => rfl⟩
      · rintro ⟨_, h⟩; rw [h (by omega)]
    · next hk h =>
      constructor
      · rintro ⟨⟩
      · rintro ⟨h1, h2⟩; rw [h1, h2 (by omega)] at h; exact absurd rfl h

/-- An opcode word is accepted exactly when it is the number of a header, and then with that header. -/
theorem decodeHeader_ok {w : Int} {h : Header} : decodeHeader w = .ok h ↔ h.wf ∧ w = (h.number : Int) := by
  obtain ⟨op, m1, m2, m3⟩ := h
  have l0 := op.number_lt
  have l1 := m1.digit_lt
  have l2 := m2.digit_lt
  have l3 := m3.digit_lt
  cases w with
  | negSucc n =>
    constructor
    · intro h; cases h
    · rintro ⟨_, h⟩; have := h ▸ Int.negSucc_lt_zero n; omega
  | ofNat n =>
    constructor
    · intro hd
      unfold decodeHeader at hd
      simp only at hd
      split at hd
      · cases hd
      · next ho =>
        split at hd
        · next ha hb hc =>
          split at hd
          · next hh =>
            cases hd
            have hn := Opcode.number_of_ofNumber ho
            rw [modeOf_some] at ha hb hc
            refine ⟨⟨ha.2, hb.2, hc.2⟩, ?_⟩
            have h1 := ha.1
            have h2 := hb.1
            have h3 := hc.1
            simp only [modeDigit, Nat.reduceAdd, Nat.reducePow] at h1 h2 h3
            simp only [Header.number, Int.ofNat_eq_natCast, Nat.cast_inj]
            omega
          · cases hd
        · cases hd
    · rintro ⟨⟨w1, w2, w3⟩, hn⟩
      have hn : n = op.number + 100 * m1.digit + 1000 * m2.digit + 10000 * m3.digit := by
        simpa [Header.number] using Int.ofNat.inj hn
      have e0 : n % 100 = op.number := by omega
      have e1 : modeOf op 1 n = some m1 := modeOf_some.mpr ⟨by simp only [modeDigit, Nat.reduceAdd, Nat.reducePow]; omega, w1⟩
      have e2 : modeOf op 2 n = some m2 := modeOf_some.mpr ⟨by simp only [modeDigit, Nat.reduceAdd, Nat.reducePow]; omega, w2⟩
      have e3 : modeOf op 3 n = some m3 := modeOf_some.mpr ⟨by simp only [modeDigit, Nat.reduceAdd, Nat.reducePow]; omega, w3⟩
      have e4 : n / 100000 = 0 := by omega
      simp [decodeHeader, e0, Opcode.ofNumber_number, e1, e2, e3, e4]

/-- A rejected opcode word is rejected by its own value. -/
theorem decodeHeader_error {w : Int} {r : Reject} (h : decodeHeader w = .error r) :
    r = .invalidOpcode w ∨ r = .invalidMode w := by
  unfold decodeHeader at h
  split at h
  · cases h; exact .inl rfl
  · split at h
    · cases h; exact .inl rfl
    · split at h
      · split at h <;> cases h; exact .inr rfl
      · cases h; exact .inr rfl

theorem Instr.header_wf (i : Instr) : i.header.wf := by cases i <;> simp [Instr.header, Header.wf, Opcode.arity]

end Sys2Proof
end

