-- ==== Sys2Proof/Laws/Memory.lean ====
section
/-! SUPPORT. The laws of the memory list: what a write makes a read give, and that every operation keeps the canonical
form. -/

namespace Sys2Proof.Machine.Memory

@[simp] theorem read_nil (a : Nat) : read [] a = unlisted := rfl

theorem wf_cons {k : Nat} {x : Int} {m : Memory} :
    wf ((k, x) :: m) = true ↔ x ≠ unlisted ∧ (∀ c ∈ m, k < c.1) ∧ wf m = true := by
  simp [wf, and_assoc]

/-- An address below every listed one is unlisted. -/
theorem read_below {m : Memory} {a : Nat} (h : ∀ c ∈ m, a < c.1) : read m a = unlisted := by
  induction m with
  | nil => rfl
  | cons c m ih =>
    obtain ⟨k, x⟩ := c
    have hk : a < k := h (k, x) (by simp)
    simp only [read, if_neg (Nat.ne_of_gt hk)]
    exact ih fun c hc => h c (by simp [hc])

/-- A write reads back, and leaves every other address alone. -/
theorem read_write {m : Memory} (hm : wf m = true) (a b : Nat) (v : Int) :
    read (write m a v) b = if b = a then v else read m b := by
  induction m with
  | nil =>
    by_cases hv : v = unlisted
    · simp [write, hv]
    · by_cases hb : b = a
      · simp [write, hv, read, hb]
      · simp [write, hv, read, hb, Ne.symm hb]
  | cons c m ih =>
    obtain ⟨k, x⟩ := c
    obtain ⟨hx, hlt, hwf⟩ := wf_cons.mp hm
    have below : ∀ d, d ≤ k → read m d = unlisted := fun d hd => read_below fun c hc => Nat.lt_of_le_of_lt hd (hlt c hc)
    simp only [write]
    split
    · next hak =>
      split
      · next hv =>
        by_cases hb : b = a
        · subst hb; simp [read, Nat.ne_of_gt hak, below b (Nat.le_of_lt hak), hv]
        · simp [hb]
      · by_cases hb : b = a
        · subst hb; simp [read]
        · simp [read, hb, Ne.symm hb]
    · split
      · next hak =>
        subst hak
        split
        · next hv =>
          by_cases hb : b = a
          · subst hb; simp [below b (Nat.le_refl b), hv]
          · simp [read, hb, Ne.symm hb]
        · by_cases hb : b = a
          · subst hb; simp [read]
          · simp [read, hb, Ne.symm hb]
      · next hna hne =>
        simp only [read, ih hwf]
        by_cases hkb : k = b
        · subst hkb; simp [Ne.symm hne]
        · simp [hkb]

theorem mem_write {m : Memory} {a : Nat} {v : Int} {c : Nat × Int} (h : c ∈ write m a v) :
    c = (a, v) ∨ c ∈ m := by
  induction m with
  | nil => simp only [write] at h; split at h <;> simp_all
  | cons d m ih =>
    obtain ⟨k, x⟩ := d
    simp only [write] at h
    split at h
    · split at h <;> simp_all
    · split at h
      · split at h
        · exact .inr (by simp [h])
        · rcases List.mem_cons.mp h with h | h <;> simp [h]
      · rcases List.mem_cons.mp h with h | h
        · simp [h]
        · rcases ih h with h | h <;> simp [h]

/-- A write keeps the canonical form. -/
theorem write_wf {m : Memory} (hm : wf m = true) (a : Nat) (v : Int) : wf (write m a v) = true := by
  induction m with
  | nil => simp only [write]; split <;> simp_all [wf]
  | cons c m ih =>
    obtain ⟨k, x⟩ := c
    obtain ⟨hx, hlt, hwf⟩ := wf_cons.mp hm
    simp only [write]
    split
    · next hak =>
      split
      · exact hm
      · next hv =>
        refine wf_cons.mpr ⟨hv, ?_, hm⟩
        intro c hc
        rcases List.mem_cons.mp hc with h | h
        · simpa [h] using hak
        · exact Nat.lt_trans hak (hlt c h)
    · split
      · next hak =>
        split
        · exact hwf
        · next hv => exact wf_cons.mpr ⟨hv, hak ▸ hlt, hwf⟩
      · next hna hne =>
        refine wf_cons.mpr ⟨hx, ?_, ih hwf⟩
        intro c hc
        rcases mem_write hc with h | h
        · simp only [h]; omega
        · exact hlt c h

theorem imageFrom_ge {ws : List Int} {a : Nat} : ∀ c ∈ imageFrom a ws, a ≤ c.1 := by
  induction ws generalizing a with
  | nil => simp [imageFrom]
  | cons w ws ih =>
    intro c hc
    simp only [imageFrom] at hc
    split at hc
    · exact Nat.le_of_succ_le (ih c hc)
    · rcases List.mem_cons.mp hc with h | h
      · simp [h]
      · exact Nat.le_of_succ_le (ih c h)

/-- A loaded image is canonical. -/
theorem imageFrom_wf (ws : List Int) (a : Nat) : wf (imageFrom a ws) = true := by
  induction ws generalizing a with
  | nil => rfl
  | cons w ws ih =>
    simp only [imageFrom]
    split
    · exact ih _
    · next hw => exact wf_cons.mpr ⟨hw, fun c hc => imageFrom_ge c hc, ih _⟩

theorem ofImage_wf (ws : List Int) : wf (ofImage ws) = true := imageFrom_wf ws 0

end Sys2Proof.Machine.Memory
end

