-- ==== Sys2Proof/Laws/State.lean ====
section
/-! SUPPORT. One lemma per field and update of the state, each true by `rfl` or one case split on `cancel`. -/

namespace Sys2Proof.Machine

variable (s : State)

@[simp] theorem setPc_pc (n : Nat) : (setPc n s).pc = n := rfl
@[simp] theorem setPc_rb (n : Nat) : (setPc n s).rb = s.rb := rfl
@[simp] theorem setPc_status (n : Nat) : (setPc n s).status = s.status := rfl
@[simp] theorem setPc_faultCode (n : Nat) : (setPc n s).faultCode = s.faultCode := rfl
@[simp] theorem setPc_faultInfo (n : Nat) : (setPc n s).faultInfo = s.faultInfo := rfl
@[simp] theorem setPc_mem (n : Nat) : (setPc n s).mem = s.mem := rfl
@[simp] theorem setPc_inChan (n : Nat) : (setPc n s).inChan = s.inChan := rfl
@[simp] theorem setPc_outChan (n : Nat) : (setPc n s).outChan = s.outChan := rfl
@[simp] theorem setPc_cancel (n : Nat) : (setPc n s).cancel = s.cancel := rfl
@[simp] theorem setPc_cancelAge (n : Nat) : (setPc n s).cancelAge = s.cancelAge := rfl
@[simp] theorem setPc_cancelDraw (n : Nat) : (setPc n s).cancelDraw = s.cancelDraw := rfl
@[simp] theorem setPc_config (n : Nat) : (setPc n s).config = s.config := rfl

@[simp] theorem setRb_pc (v : Int) : (setRb v s).pc = s.pc := rfl
@[simp] theorem setRb_rb (v : Int) : (setRb v s).rb = v := rfl
@[simp] theorem setRb_status (v : Int) : (setRb v s).status = s.status := rfl
@[simp] theorem setRb_faultCode (v : Int) : (setRb v s).faultCode = s.faultCode := rfl
@[simp] theorem setRb_faultInfo (v : Int) : (setRb v s).faultInfo = s.faultInfo := rfl
@[simp] theorem setRb_mem (v : Int) : (setRb v s).mem = s.mem := rfl
@[simp] theorem setRb_inChan (v : Int) : (setRb v s).inChan = s.inChan := rfl
@[simp] theorem setRb_outChan (v : Int) : (setRb v s).outChan = s.outChan := rfl
@[simp] theorem setRb_cancel (v : Int) : (setRb v s).cancel = s.cancel := rfl
@[simp] theorem setRb_cancelAge (v : Int) : (setRb v s).cancelAge = s.cancelAge := rfl
@[simp] theorem setRb_cancelDraw (v : Int) : (setRb v s).cancelDraw = s.cancelDraw := rfl
@[simp] theorem setRb_config (v : Int) : (setRb v s).config = s.config := rfl

@[simp] theorem setMem_pc (m : Memory) : (setMem m s).pc = s.pc := rfl
@[simp] theorem setMem_rb (m : Memory) : (setMem m s).rb = s.rb := rfl
@[simp] theorem setMem_status (m : Memory) : (setMem m s).status = s.status := rfl
@[simp] theorem setMem_faultCode (m : Memory) : (setMem m s).faultCode = s.faultCode := rfl
@[simp] theorem setMem_faultInfo (m : Memory) : (setMem m s).faultInfo = s.faultInfo := rfl
@[simp] theorem setMem_mem (m : Memory) : (setMem m s).mem = m := rfl
@[simp] theorem setMem_inChan (m : Memory) : (setMem m s).inChan = s.inChan := rfl
@[simp] theorem setMem_outChan (m : Memory) : (setMem m s).outChan = s.outChan := rfl
@[simp] theorem setMem_cancel (m : Memory) : (setMem m s).cancel = s.cancel := rfl
@[simp] theorem setMem_cancelAge (m : Memory) : (setMem m s).cancelAge = s.cancelAge := rfl
@[simp] theorem setMem_cancelDraw (m : Memory) : (setMem m s).cancelDraw = s.cancelDraw := rfl
@[simp] theorem setMem_config (m : Memory) : (setMem m s).config = s.config := rfl

@[simp] theorem setIn_pc (q : List Int) : (setIn q s).pc = s.pc := rfl
@[simp] theorem setIn_rb (q : List Int) : (setIn q s).rb = s.rb := rfl
@[simp] theorem setIn_status (q : List Int) : (setIn q s).status = s.status := rfl
@[simp] theorem setIn_faultCode (q : List Int) : (setIn q s).faultCode = s.faultCode := rfl
@[simp] theorem setIn_faultInfo (q : List Int) : (setIn q s).faultInfo = s.faultInfo := rfl
@[simp] theorem setIn_mem (q : List Int) : (setIn q s).mem = s.mem := rfl
@[simp] theorem setIn_inChan (q : List Int) : (setIn q s).inChan = q := rfl
@[simp] theorem setIn_outChan (q : List Int) : (setIn q s).outChan = s.outChan := rfl
@[simp] theorem setIn_cancel (q : List Int) : (setIn q s).cancel = s.cancel := rfl
@[simp] theorem setIn_cancelAge (q : List Int) : (setIn q s).cancelAge = s.cancelAge := rfl
@[simp] theorem setIn_cancelDraw (q : List Int) : (setIn q s).cancelDraw = s.cancelDraw := rfl
@[simp] theorem setIn_config (q : List Int) : (setIn q s).config = s.config := rfl

@[simp] theorem setOut_pc (q : List Int) : (setOut q s).pc = s.pc := rfl
@[simp] theorem setOut_rb (q : List Int) : (setOut q s).rb = s.rb := rfl
@[simp] theorem setOut_status (q : List Int) : (setOut q s).status = s.status := rfl
@[simp] theorem setOut_faultCode (q : List Int) : (setOut q s).faultCode = s.faultCode := rfl
@[simp] theorem setOut_faultInfo (q : List Int) : (setOut q s).faultInfo = s.faultInfo := rfl
@[simp] theorem setOut_mem (q : List Int) : (setOut q s).mem = s.mem := rfl
@[simp] theorem setOut_inChan (q : List Int) : (setOut q s).inChan = s.inChan := rfl
@[simp] theorem setOut_outChan (q : List Int) : (setOut q s).outChan = q := rfl
@[simp] theorem setOut_cancel (q : List Int) : (setOut q s).cancel = s.cancel := rfl
@[simp] theorem setOut_cancelAge (q : List Int) : (setOut q s).cancelAge = s.cancelAge := rfl
@[simp] theorem setOut_cancelDraw (q : List Int) : (setOut q s).cancelDraw = s.cancelDraw := rfl
@[simp] theorem setOut_config (q : List Int) : (setOut q s).config = s.config := rfl

@[simp] theorem setHalted_pc : (setHalted s).pc = s.pc := rfl
@[simp] theorem setHalted_rb : (setHalted s).rb = s.rb := rfl
@[simp] theorem setHalted_status : (setHalted s).status = .halted := rfl
@[simp] theorem setHalted_faultCode : (setHalted s).faultCode = s.faultCode := rfl
@[simp] theorem setHalted_faultInfo : (setHalted s).faultInfo = s.faultInfo := rfl
@[simp] theorem setHalted_mem : (setHalted s).mem = s.mem := rfl
@[simp] theorem setHalted_inChan : (setHalted s).inChan = s.inChan := rfl
@[simp] theorem setHalted_outChan : (setHalted s).outChan = s.outChan := rfl
@[simp] theorem setHalted_cancel : (setHalted s).cancel = s.cancel := rfl
@[simp] theorem setHalted_cancelAge : (setHalted s).cancelAge = s.cancelAge := rfl
@[simp] theorem setHalted_cancelDraw : (setHalted s).cancelDraw = s.cancelDraw := rfl
@[simp] theorem setHalted_config : (setHalted s).config = s.config := rfl

@[simp] theorem takeFault_pc (e : Raised) : (takeFault e s).pc = s.pc := rfl
@[simp] theorem takeFault_rb (e : Raised) : (takeFault e s).rb = s.rb := rfl
@[simp] theorem takeFault_status (e : Raised) : (takeFault e s).status = .faulted := rfl
@[simp] theorem takeFault_faultCode (e : Raised) : (takeFault e s).faultCode = some e.code := rfl
@[simp] theorem takeFault_faultInfo (e : Raised) : (takeFault e s).faultInfo = some e.info := rfl
@[simp] theorem takeFault_mem (e : Raised) : (takeFault e s).mem = s.mem := rfl
@[simp] theorem takeFault_inChan (e : Raised) : (takeFault e s).inChan = s.inChan := rfl
@[simp] theorem takeFault_outChan (e : Raised) : (takeFault e s).outChan = s.outChan := rfl
@[simp] theorem takeFault_cancel (e : Raised) : (takeFault e s).cancel = s.cancel := rfl
@[simp] theorem takeFault_cancelAge (e : Raised) : (takeFault e s).cancelAge = s.cancelAge := rfl
@[simp] theorem takeFault_cancelDraw (e : Raised) : (takeFault e s).cancelDraw = s.cancelDraw := rfl
@[simp] theorem takeFault_config (e : Raised) : (takeFault e s).config = s.config := rfl

@[simp] theorem takeCancel_pc : (takeCancel s).pc = s.pc := rfl
@[simp] theorem takeCancel_rb : (takeCancel s).rb = s.rb := rfl
@[simp] theorem takeCancel_status : (takeCancel s).status = .cancelled := rfl
@[simp] theorem takeCancel_faultCode : (takeCancel s).faultCode = s.faultCode := rfl
@[simp] theorem takeCancel_faultInfo : (takeCancel s).faultInfo = s.faultInfo := rfl
@[simp] theorem takeCancel_mem : (takeCancel s).mem = s.mem := rfl
@[simp] theorem takeCancel_inChan : (takeCancel s).inChan = s.inChan := rfl
@[simp] theorem takeCancel_outChan : (takeCancel s).outChan = s.outChan := rfl
@[simp] theorem takeCancel_cancel : (takeCancel s).cancel = s.cancel := rfl
@[simp] theorem takeCancel_cancelAge : (takeCancel s).cancelAge = s.cancelAge := rfl
@[simp] theorem takeCancel_cancelDraw : (takeCancel s).cancelDraw = s.cancelDraw := rfl
@[simp] theorem takeCancel_config : (takeCancel s).config = s.config := rfl

@[simp] theorem pollCancel_pc : (pollCancel s).pc = s.pc := by unfold pollCancel; split <;> rfl
@[simp] theorem pollCancel_rb : (pollCancel s).rb = s.rb := by unfold pollCancel; split <;> rfl
@[simp] theorem pollCancel_status : (pollCancel s).status = s.status := by unfold pollCancel; split <;> rfl
@[simp] theorem pollCancel_faultCode : (pollCancel s).faultCode = s.faultCode := by unfold pollCancel; split <;> rfl
@[simp] theorem pollCancel_faultInfo : (pollCancel s).faultInfo = s.faultInfo := by unfold pollCancel; split <;> rfl
@[simp] theorem pollCancel_mem : (pollCancel s).mem = s.mem := by unfold pollCancel; split <;> rfl
@[simp] theorem pollCancel_inChan : (pollCancel s).inChan = s.inChan := by unfold pollCancel; split <;> rfl
@[simp] theorem pollCancel_outChan : (pollCancel s).outChan = s.outChan := by unfold pollCancel; split <;> rfl
@[simp] theorem pollCancel_cancel : (pollCancel s).cancel = s.cancel := by unfold pollCancel; split <;> rfl
@[simp] theorem pollCancel_cancelDraw : (pollCancel s).cancelDraw = s.cancelDraw := by unfold pollCancel; split <;> rfl
@[simp] theorem pollCancel_config : (pollCancel s).config = s.config := by unfold pollCancel; split <;> rfl
theorem pollCancel_cancelAge : (pollCancel s).cancelAge = s.cancelAge + (if s.cancel then 1 else 0) := by
  unfold pollCancel; split <;> rfl

@[simp] theorem raiseCancel_pc : (raiseCancel s).pc = s.pc := by unfold raiseCancel; split <;> rfl
@[simp] theorem raiseCancel_rb : (raiseCancel s).rb = s.rb := by unfold raiseCancel; split <;> rfl
@[simp] theorem raiseCancel_status : (raiseCancel s).status = s.status := by unfold raiseCancel; split <;> rfl
@[simp] theorem raiseCancel_faultCode : (raiseCancel s).faultCode = s.faultCode := by unfold raiseCancel; split <;> rfl
@[simp] theorem raiseCancel_faultInfo : (raiseCancel s).faultInfo = s.faultInfo := by unfold raiseCancel; split <;> rfl
@[simp] theorem raiseCancel_mem : (raiseCancel s).mem = s.mem := by unfold raiseCancel; split <;> rfl
@[simp] theorem raiseCancel_inChan : (raiseCancel s).inChan = s.inChan := by unfold raiseCancel; split <;> rfl
@[simp] theorem raiseCancel_outChan : (raiseCancel s).outChan = s.outChan := by unfold raiseCancel; split <;> rfl
@[simp] theorem raiseCancel_config : (raiseCancel s).config = s.config := by unfold raiseCancel; split <;> rfl
@[simp] theorem raiseCancel_cancel : (raiseCancel s).cancel = true := by unfold raiseCancel; split <;> simp_all

theorem pollCancel_of_not_cancel {s : State} (h : s.cancel = false) : pollCancel s = s := by simp [pollCancel, h]

end Sys2Proof.Machine
end

