-- ==== Sys2Proof/Laws/Operands.lean ====
section
/-! SUPPORT. What the shared operations can do: one lemma for each says all its outcomes, and callers cite it. -/

namespace Sys2Proof.Machine

variable {s t : State} {p : Operand} {a v : Int} {e : Raised} {n : Nat}

/-! ### Limits and addresses -/

theorem result_ok : result v s = .ok a ↔ s.config.admitsWord v = true ∧ a = v := by
  unfold result
  split <;> simp_all
  exact ⟨Eq.symm, Eq.symm⟩

theorem result_of_admits (h : s.config.admitsWord v = true) : result v s = .ok v := by simp [result, h]

theorem result_of_exceeds (h : s.config.admitsWord v = false) : result v s = .error ⟨.capacityExceeded, v⟩ := by
  simp [result, h]

theorem checkAddr_ok : checkAddr a s = .ok n ↔ 0 ≤ a ∧ admitsAddr s.config a.toNat = true ∧ n = a.toNat := by
  unfold checkAddr
  split
  · next h => simp [Int.not_le.mpr h]
  · next h =>
    split
    · next ha => simp [Int.not_lt.mp h, ha, @eq_comm Nat n]
    · next ha => simp [ha]

theorem checkAddr_of_nonneg (h0 : 0 ≤ a) (ha : admitsAddr s.config a.toNat = true) : checkAddr a s = .ok a.toNat :=
  checkAddr_ok.mpr ⟨h0, ha, rfl⟩

theorem checkAddr_of_neg (h : a < 0) : checkAddr a s = .error ⟨.addressFault, a⟩ := by simp [checkAddr, h]

theorem checkAddr_of_exceeds (h0 : 0 ≤ a) (ha : admitsAddr s.config a.toNat = false) :
    checkAddr a s = .error ⟨.capacityExceeded, a⟩ := by simp [checkAddr, Int.not_lt.mpr h0, ha]

theorem memRead_of_ok (h : checkAddr a s = .ok n) : memRead a s = .ok (s.mem.read n) := by simp [memRead, h]

theorem memRead_ok : memRead a s = .ok v ↔ ∃ n, checkAddr a s = .ok n ∧ v = s.mem.read n := by
  unfold memRead
  cases checkAddr a s with
  | error e => simp
  | ok n => simp [@eq_comm Int v]

theorem memWrite_of_ok (h : checkAddr a s = .ok n) : memWrite a v s = .ok (setMem (s.mem.write n v) s) := by
  simp [memWrite, h]

theorem memWrite_ok : memWrite a v s = .ok t ↔ ∃ n, checkAddr a s = .ok n ∧ t = setMem (s.mem.write n v) s := by
  unfold memWrite
  cases checkAddr a s with
  | error e => simp
  | ok n => simp [@eq_comm State t]

/-! ### Loads and stores -/

/-- A store that succeeds writes the one cell at the operand's effective address. -/
theorem store_ok : store p v s = .ok t ↔
    ∃ d, effectiveAddr p s = some d ∧ 0 ≤ d ∧ admitsAddr s.config d.toNat = true ∧
      t = setMem (s.mem.write d.toNat v) s := by
  unfold store
  split
  · next h => simp [h]
  · next d h =>
    rw [memWrite_ok]
    constructor
    · rintro ⟨n, hn, rfl⟩
      obtain ⟨h0, ha, rfl⟩ := checkAddr_ok.mp hn
      exact ⟨d, h, h0, ha, rfl⟩
    · rintro ⟨d', hd, h0, ha, rfl⟩
      obtain rfl : d = d' := by simpa using h.symm.trans hd
      exact ⟨_, checkAddr_of_nonneg h0 ha, rfl⟩

theorem binary_ok {f : Int → Int → Int} {p1 p2 : Operand} : binary f p1 p2 s = .ok v ↔
    ∃ a b, load p1 s = .ok a ∧ load p2 s = .ok b ∧ s.config.admitsWord (f a b) = true ∧ v = f a b := by
  unfold binary
  cases h1 : load p1 s with
  | error e => simp [bind, Except.bind]
  | ok a =>
    cases h2 : load p2 s with
    | error e => simp [bind, Except.bind]
    | ok b => simp [bind, Except.bind, result_ok]

/-! ### Where `CapacityExceeded` can come from -/

/-- Neither words nor addresses are limited: the spec's values of `WORD_BITS` and `ADDR_MAX`. -/
def Unlimited (s : State) : Prop := s.config.wordBits = none ∧ s.config.addrMax = none

/-- If this raises a fault, it is not `CapacityExceeded`. -/
def NoCapacity {α : Type} (x : Except Raised α) : Prop := ∀ e, x = .error e → e.code ≠ .capacityExceeded

theorem NoCapacity.ok {α : Type} (a : α) : NoCapacity (.ok a : Except Raised α) := by intro e h; cases h

theorem NoCapacity.bind {α β : Type} {x : Except Raised α} {f : α → Except Raised β} (hx : NoCapacity x)
    (hf : ∀ a, NoCapacity (f a)) : NoCapacity (x >>= f) := by
  cases x with
  | error e => intro e' h; exact hx e' (by simpa [Bind.bind, Except.bind] using h)
  | ok a => simpa [Bind.bind, Except.bind] using hf a

theorem checkAddr_noCapacity (hs : Unlimited s) (a : Int) : NoCapacity (checkAddr a s) := by
  intro e h
  have ha : ∀ n, admitsAddr s.config n = true := by simp [admitsAddr, hs.2]
  unfold checkAddr at h
  split at h <;> simp [ha] at h
  subst h; simp

theorem memRead_noCapacity (hs : Unlimited s) (a : Int) : NoCapacity (memRead a s) := by
  intro e h
  unfold memRead at h
  split at h
  · next hc => cases h; exact checkAddr_noCapacity hs a e hc
  · cases h

theorem load_noCapacity (hs : Unlimited s) (p : Operand) : NoCapacity (load p s) := by
  intro e h
  unfold load at h
  split at h
  · cases h
  · exact memRead_noCapacity hs _ e h

theorem store_noCapacity (hs : Unlimited s) (p : Operand) (v : Int) : NoCapacity (store p v s) := by
  intro e h
  unfold store at h
  split at h
  · cases h; simp
  · unfold memWrite at h
    split at h
    · next hc => cases h; exact checkAddr_noCapacity hs _ e hc
    · cases h

theorem result_noCapacity (hs : Unlimited s) (v : Int) : NoCapacity (result v s) := by
  intro e h; simp [result, Config.admitsWord, hs.1] at h

theorem binary_noCapacity (hs : Unlimited s) (f : Int → Int → Int) (p1 p2 : Operand) : NoCapacity (binary f p1 p2 s) :=
  .bind (load_noCapacity hs _) fun _ => .bind (load_noCapacity hs _) fun _ => result_noCapacity hs _

/-! ### How an instruction ends -/

/-- An instruction that settles always has a next state: the one it made, or the fault taken. -/
theorem settle_cases (s : State) (r : Except Raised State) :
    (∃ t, r = .ok t ∧ settle s r = .next t) ∨ (∃ e, r = .error e ∧ settle s r = .next (takeFault e s)) := by
  cases r with
  | ok t => exact .inl ⟨t, rfl, rfl⟩
  | error e => exact .inr ⟨e, rfl, rfl⟩

@[simp] theorem settle_ne_fault (s : State) (r : Except Raised State) (f : Fault) : settle s r ≠ .fault f := by
  cases r <;> simp [settle]

@[simp] theorem settle_ne_refused (s : State) (r : Except Raised State) (f : Refusal) : settle s r ≠ .refused f := by
  cases r <;> simp [settle]

/-- Everything a three-parameter instruction can do: the store of its result and `pc + 4`, or a fault taken. -/
theorem threeParam_cases {f : Int → Int → Int} {p1 p2 p3 : Operand} {s : State} {t : State}
    (h : threeParam f p1 p2 p3 s = .next t) :
    (∃ v d, binary f p1 p2 s = .ok v ∧ effectiveAddr p3 s = some d ∧ 0 ≤ d ∧
        admitsAddr s.config d.toNat = true ∧ t = setPc (s.pc + 4) (setMem (s.mem.write d.toNat v) s)) ∨
      (∃ e, (Unlimited s → e.code ≠ .capacityExceeded) ∧ t = takeFault e s) := by
  unfold threeParam at h
  cases hb : binary f p1 p2 s with
  | error e =>
    simp only [hb, bind, Except.bind, settle, Host.Outcome.next.injEq] at h
    exact .inr ⟨e, fun hs => binary_noCapacity hs f p1 p2 e hb, h.symm⟩
  | ok v =>
    cases hs : store p3 v s with
    | error e =>
      simp only [hb, hs, bind, Except.bind, settle, Host.Outcome.next.injEq] at h
      exact .inr ⟨e, fun hl => store_noCapacity hl p3 v e hs, h.symm⟩
    | ok u =>
      simp only [hb, hs, bind, Except.bind, settle, Host.Outcome.next.injEq] at h
      obtain ⟨d, hd, h0, ha, rfl⟩ := store_ok.mp hs
      exact .inl ⟨v, d, rfl, hd, h0, ha, h.symm⟩

/-- Everything a jump can do: the target, the next instruction, or a fault taken. -/
theorem jumpWhen_cases {k : Int → Bool} {p1 p2 : Operand} {s : State} {t : State} (h : jumpWhen k p1 p2 s = .next t) :
    (∃ c g, load p1 s = .ok c ∧ k c = true ∧ load p2 s = .ok g ∧ 0 ≤ g ∧ t = setPc g.toNat s) ∨
      (∃ c, load p1 s = .ok c ∧ k c = false ∧ t = setPc (s.pc + 3) s) ∨ (∃ e, (Unlimited s → e.code ≠ .capacityExceeded) ∧ t = takeFault e s) := by
  unfold jumpWhen at h
  cases h1 : load p1 s with
  | error e =>
    simp only [h1, bind, Except.bind, settle, Host.Outcome.next.injEq] at h
    exact .inr (.inr ⟨e, fun hs => load_noCapacity hs p1 e h1, h.symm⟩)
  | ok c =>
    cases hk : k c with
    | false =>
      simp [h1, bind, Except.bind, settle, hk] at h
      exact .inr (.inl ⟨c, rfl, hk, h.symm⟩)
    | true =>
      cases h2 : load p2 s with
      | error e =>
        simp [h1, h2, bind, Except.bind, settle, hk] at h
        exact .inr (.inr ⟨e, fun hs => load_noCapacity hs p2 e h2, h.symm⟩)
      | ok g =>
        by_cases hg : g < 0
        · simp [h1, h2, bind, Except.bind, settle, hk, jumpTo, hg] at h
          exact .inr (.inr ⟨_, by simp, h.symm⟩)
        · simp [h1, h2, bind, Except.bind, settle, hk, jumpTo, hg] at h
          exact .inl ⟨c, g, rfl, hk, rfl, Int.not_lt.mp hg, h.symm⟩

theorem threeParam_next (f : Int → Int → Int) (p1 p2 p3 : Operand) (s : State) :
    ∃ t, threeParam f p1 p2 p3 s = .next t := by
  rcases settle_cases s _ with ⟨t, _, h⟩ | ⟨e, _, h⟩ <;> exact ⟨_, h⟩

theorem jumpWhen_next (k : Int → Bool) (p1 p2 : Operand) (s : State) : ∃ t, jumpWhen k p1 p2 s = .next t := by
  rcases settle_cases s _ with ⟨t, _, h⟩ | ⟨e, _, h⟩ <;> exact ⟨_, h⟩

end Sys2Proof.Machine
end

