-- ==== Sys2Proof/Laws/Exec.lean ====
section
/-! SUPPORT. Everything an instruction and a step can do, said once: an inversion lemma for each meaning and for the engine. -/

namespace Sys2Proof.Machine

variable {s t : State}

theorem execInput_cases {p1 : Operand} (h : execInput p1 s = .next t) :
    ∃ v q, s.inChan = v :: q ∧
      ((∃ d, s.config.admitsWord v = true ∧ effectiveAddr p1 s = some d ∧ 0 ≤ d ∧ admitsAddr s.config d.toNat = true ∧
          t = setPc (s.pc + 2) (setMem (s.mem.write d.toNat v) (setIn q s))) ∨
        (∃ e, (Unlimited s → e.code ≠ .capacityExceeded) ∧ t = takeFault e (setIn q s))) := by
  unfold execInput inGet at h
  cases hq : s.inChan with
  | nil => simp [hq] at h
  | cons v q =>
    refine ⟨v, q, rfl, ?_⟩
    simp only [hq] at h
    cases hr : result v (setIn q s) with
    | error e =>
      simp only [hr, bind, Except.bind, settle, Host.Outcome.next.injEq] at h
      exact .inr ⟨e, fun hl => result_noCapacity (s := setIn q s) hl v e hr, h.symm⟩
    | ok r =>
      obtain ⟨hv, rfl⟩ := result_ok.mp hr
      cases hs : store p1 r (setIn q s) with
      | error e =>
        simp only [hr, hs, bind, Except.bind, settle, Host.Outcome.next.injEq] at h
        exact .inr ⟨e, fun hl => store_noCapacity (s := setIn q s) hl p1 r e hs, h.symm⟩
      | ok u =>
        simp only [hr, hs, bind, Except.bind, settle, Host.Outcome.next.injEq] at h
        obtain ⟨d, hd, h0, ha, rfl⟩ := store_ok.mp hs
        exact .inl ⟨d, hv, hd, h0, ha, h.symm⟩

theorem execOutput_cases {p1 : Operand} (h : execOutput p1 s = .next t) :
    (∃ v, load p1 s = .ok v ∧ channelFull s.config s.outChan = false ∧ t = setPc (s.pc + 2) (setOut (s.outChan ++ [v]) s)) ∨
      (∃ e, (Unlimited s → e.code ≠ .capacityExceeded) ∧ t = takeFault e s) := by
  unfold execOutput at h
  cases hl : load p1 s with
  | error e =>
    simp only [hl, Host.Outcome.next.injEq] at h
    exact .inr ⟨e, fun hs => load_noCapacity hs p1 e hl, h.symm⟩
  | ok v =>
    cases hf : channelFull s.config s.outChan with
    | true => simp [hl, hf] at h
    | false =>
      simp [hl, hf] at h
      exact .inl ⟨v, rfl, rfl, h.symm⟩

theorem execAdjustRelativeBase_cases {p1 : Operand} (h : execAdjustRelativeBase p1 s = .next t) :
    (∃ v, load p1 s = .ok v ∧ s.config.admitsWord (s.rb + v) = true ∧ t = setPc (s.pc + 2) (setRb (s.rb + v) s)) ∨
      (∃ e, (Unlimited s → e.code ≠ .capacityExceeded) ∧ t = takeFault e s) := by
  unfold execAdjustRelativeBase at h
  cases hl : load p1 s with
  | error e =>
    simp only [hl, bind, Except.bind, settle, Host.Outcome.next.injEq] at h
    exact .inr ⟨e, fun hs => load_noCapacity hs p1 e hl, h.symm⟩
  | ok v =>
    cases hr : result (s.rb + v) s with
    | error e =>
      simp only [hl, hr, bind, Except.bind, settle, Host.Outcome.next.injEq] at h
      exact .inr ⟨e, fun hs => result_noCapacity hs _ e hr, h.symm⟩
    | ok b =>
      obtain ⟨hv, rfl⟩ := result_ok.mp hr
      simp only [hl, hr, bind, Except.bind, settle, Host.Outcome.next.injEq] at h
      exact .inl ⟨v, rfl, hv, h.symm⟩

/-- The ways an instruction changes the state, over all ten. -/
inductive Effect (i : Instr) (s : State) : State → Prop where
  /-- Add, Multiply, LessThan, Equals -/
  | stored (p : Operand) (v d : Int) (hDest : i.destination = some p) (hInput : ∀ q, i ≠ .input q)
      (hWidth : i.width = 4) (hFits : s.config.admitsWord v = true) (hAddr : effectiveAddr p s = some d) (h0 : 0 ≤ d)
      (hIn : admitsAddr s.config d.toNat = true) :
      Effect i s (setPc (s.pc + 4) (setMem (s.mem.write d.toNat v) s))
  | received (p : Operand) (v : Int) (q : List Int) (d : Int) (hi : i = .input p) (hq : s.inChan = v :: q)
      (hFits : s.config.admitsWord v = true) (hAddr : effectiveAddr p s = some d) (h0 : 0 ≤ d)
      (hIn : admitsAddr s.config d.toNat = true) :
      Effect i s (setPc (s.pc + 2) (setMem (s.mem.write d.toNat v) (setIn q s)))
  | emitted (p : Operand) (v : Int) (hi : i = .output p) (hLoad : load p s = .ok v)
      (hRoom : channelFull s.config s.outChan = false) :
      Effect i s (setPc (s.pc + 2) (setOut (s.outChan ++ [v]) s))
  | jumped (p1 p2 : Operand) (c g : Int)
      (hi : (i = .jumpIfTrue p1 p2 ∧ c ≠ 0) ∨ (i = .jumpIfFalse p1 p2 ∧ c = 0))
      (hCond : load p1 s = .ok c) (hTarget : load p2 s = .ok g) (h0 : 0 ≤ g) : Effect i s (setPc g.toNat s)
  | passed (p1 p2 : Operand) (c : Int) (hi : (i = .jumpIfTrue p1 p2 ∧ c = 0) ∨ (i = .jumpIfFalse p1 p2 ∧ c ≠ 0))
      (hCond : load p1 s = .ok c) : Effect i s (setPc (s.pc + 3) s)
  | rebased (p : Operand) (v : Int) (hi : i = .adjustRelativeBase p) (hLoad : load p s = .ok v)
      (hFits : s.config.admitsWord (s.rb + v) = true) : Effect i s (setPc (s.pc + 2) (setRb (s.rb + v) s))
  | halted (hi : i = .halt) : Effect i s (setHalted s)
  | faulted (e : Raised) (hi : ∀ q, i ≠ .input q) (hCause : Unlimited s → e.code ≠ .capacityExceeded) : Effect i s (takeFault e s)
  | inputFaulted (e : Raised) (p : Operand) (v : Int) (q : List Int) (hi : i = .input p) (hq : s.inChan = v :: q)
      (hCause : Unlimited s → e.code ≠ .capacityExceeded) : Effect i s (takeFault e (setIn q s))

theorem threeParam_effect {f : Int → Int → Int} {p1 p2 p3 : Operand} {i : Instr} (hDest : i.destination = some p3)
    (hInput : ∀ q, i ≠ .input q) (hWidth : i.width = 4) (h : threeParam f p1 p2 p3 s = .next t) : Effect i s t := by
  rcases threeParam_cases h with ⟨v, d, hb, hd, h0, ha, rfl⟩ | ⟨e, he, rfl⟩
  · obtain ⟨a, b, _, _, hf, rfl⟩ := binary_ok.mp hb
    exact .stored p3 _ d hDest hInput hWidth hf hd h0 ha
  · exact .faulted e hInput he

/-- Everything an instruction can do when it answers a next state. -/
theorem exec_effect {i : Instr} (h : exec i s = .next t) : Effect i s t := by
  cases i with
  | add p1 p2 p3 => exact threeParam_effect rfl (by simp) rfl h
  | multiply p1 p2 p3 => exact threeParam_effect rfl (by simp) rfl h
  | lessThan p1 p2 p3 => exact threeParam_effect rfl (by simp) rfl h
  | equals p1 p2 p3 => exact threeParam_effect rfl (by simp) rfl h
  | input p =>
    obtain ⟨v, q, hq, ⟨d, hv, hd, h0, ha, rfl⟩ | ⟨e, he, rfl⟩⟩ := execInput_cases h
    · exact .received p v q d rfl hq hv hd h0 ha
    · exact .inputFaulted e p v q rfl hq he
  | output p =>
    rcases execOutput_cases h with ⟨v, hl, hf, rfl⟩ | ⟨e, he, rfl⟩
    · exact .emitted p v rfl hl hf
    · exact .faulted e (by simp) he
  | jumpIfTrue p1 p2 =>
    rcases jumpWhen_cases h with ⟨c, g, hc, hk, hg, h0, rfl⟩ | ⟨c, hc, hk, rfl⟩ | ⟨e, he, rfl⟩
    · exact .jumped p1 p2 c g (.inl ⟨rfl, by simpa [truthy] using hk⟩) hc hg h0
    · exact .passed p1 p2 c (.inl ⟨rfl, by simpa [truthy] using hk⟩) hc
    · exact .faulted e (by simp) he
  | jumpIfFalse p1 p2 =>
    rcases jumpWhen_cases h with ⟨c, g, hc, hk, hg, h0, rfl⟩ | ⟨c, hc, hk, rfl⟩ | ⟨e, he, rfl⟩
    · exact .jumped p1 p2 c g (.inr ⟨rfl, by simpa [falsy] using hk⟩) hc hg h0
    · exact .passed p1 p2 c (.inr ⟨rfl, by simpa [falsy] using hk⟩) hc
    · exact .faulted e (by simp) he
  | adjustRelativeBase p =>
    rcases execAdjustRelativeBase_cases h with ⟨v, hl, hv, rfl⟩ | ⟨e, he, rfl⟩
    · exact .rebased p v rfl hl hv
    · exact .faulted e (by simp) he
  | halt =>
    simp only [exec, execHalt, Host.Outcome.next.injEq] at h
    exact h ▸ .halted rfl

/-- The only instructions without a step: Input on an empty channel, Output on a full one. -/
theorem exec_no_step {i : Instr} {r : Fault} (h : exec i s = .fault r) :
    (∃ p, i = .input p ∧ s.inChan = [] ∧ r = .blockedOnInput) ∨
      (∃ p v, i = .output p ∧ load p s = .ok v ∧ channelFull s.config s.outChan = true ∧ r = .blockedOnOutput) := by
  cases i with
  | add p1 p2 p3 => exact absurd h (settle_ne_fault _ _ _)
  | multiply p1 p2 p3 => exact absurd h (settle_ne_fault _ _ _)
  | lessThan p1 p2 p3 => exact absurd h (settle_ne_fault _ _ _)
  | equals p1 p2 p3 => exact absurd h (settle_ne_fault _ _ _)
  | jumpIfTrue p1 p2 => exact absurd h (settle_ne_fault _ _ _)
  | jumpIfFalse p1 p2 => exact absurd h (settle_ne_fault _ _ _)
  | input p =>
    simp only [exec, execInput, inGet] at h
    cases hq : s.inChan with
    | nil => simp [hq] at h; exact .inl ⟨p, rfl, rfl, h.symm⟩
    | cons v q => simp only [hq] at h; exact absurd h (settle_ne_fault _ _ _)
  | output p =>
    simp only [exec, execOutput] at h
    cases hl : load p s with
    | error e => simp [hl] at h
    | ok v =>
      cases hf : channelFull s.config s.outChan with
      | false => simp [hl, hf] at h
      | true => simp [hl, hf] at h; exact .inr ⟨p, v, rfl, hl, rfl, h.symm⟩
  | adjustRelativeBase p =>
    simp only [exec, execAdjustRelativeBase] at h
    exact absurd h (settle_ne_fault _ _ _)
  | halt => simp [exec, execHalt] at h

/-- No instruction is refused. -/
theorem exec_not_refused (i : Instr) (s : State) (r : Refusal) : exec i s ≠ .refused r := by
  cases i with
  | add p1 p2 p3 => exact settle_ne_refused _ _ _
  | multiply p1 p2 p3 => exact settle_ne_refused _ _ _
  | lessThan p1 p2 p3 => exact settle_ne_refused _ _ _
  | equals p1 p2 p3 => exact settle_ne_refused _ _ _
  | jumpIfTrue p1 p2 => exact settle_ne_refused _ _ _
  | jumpIfFalse p1 p2 => exact settle_ne_refused _ _ _
  | input p =>
    simp only [exec, execInput]
    cases inGet s with
    | none => simp
    | some c => exact settle_ne_refused _ _ _
  | output p =>
    simp only [exec, execOutput]
    cases load p s with
    | error e => simp
    | ok v => simp only []; split <;> simp
  | adjustRelativeBase p =>
    simp only [exec, execAdjustRelativeBase]
    exact settle_ne_refused _ _ _
  | halt => simp [exec, execHalt]

/-! ### The engine -/

theorem memRead_congr {u : State} (hm : u.mem = s.mem) (hc : u.config = s.config) (a : Int) : memRead a u = memRead a s := by
  simp [memRead, checkAddr, hm, hc]

theorem readParams_congr {u : State} (hm : u.mem = s.mem) (hc : u.config = s.config) (a n : Nat) :
    readParams a n u = readParams a n s := by
  induction n generalizing a with
  | zero => rfl
  | succ n ih => simp [readParams, memRead_congr hm hc, ih]

/-- The fetch depends on `pc`, the memory and the limits alone. -/
theorem fetchInstr_congr {u : State} (hp : u.pc = s.pc) (hm : u.mem = s.mem) (hc : u.config = s.config) :
    fetchInstr u = fetchInstr s := by
  simp [fetchInstr, memRead_congr hm hc, readParams_congr hm hc, hp]

@[simp] theorem fetchInstr_pollCancel (s : State) : fetchInstr (pollCancel s) = fetchInstr s :=
  fetchInstr_congr (by simp) (by simp) (by simp)

theorem readParams_noCapacity (hs : Unlimited s) (a n : Nat) : NoCapacity (readParams a n s) := by
  induction n generalizing a with
  | zero => exact .ok _
  | succ n ih => exact .bind (memRead_noCapacity hs _) fun _ => .bind (ih _) fun _ => .ok _

theorem fetchInstr_noCapacity (hs : Unlimited s) : NoCapacity (fetchInstr s) := by
  refine .bind (memRead_noCapacity hs _) fun w => ?_
  cases decodeHeader w with
  | error r => intro e h; cases h; cases r <;> simp [raisedOf]
  | ok h => exact .bind (readParams_noCapacity hs _ _) fun _ => .ok _

/-- What one whole instruction, fetched or not, does when it answers a next state. -/
theorem runInstruction_cases (h : runInstruction s = .next t) :
    (∃ e, fetchInstr s = .error e ∧ t = takeFault e s) ∨ (∃ i, fetchInstr s = .ok i ∧ Effect i s t) := by
  unfold runInstruction at h
  cases hf : fetchInstr s with
  | error e => simp only [hf, Host.Outcome.next.injEq] at h; exact .inl ⟨e, rfl, h.symm⟩
  | ok i => simp only [hf] at h; exact .inr ⟨i, rfl, exec_effect h⟩

theorem runInstruction_not_refused (s : State) (r : Refusal) : runInstruction s ≠ .refused r := by
  unfold runInstruction
  cases fetchInstr s with
  | error e => simp
  | ok i => exact exec_not_refused i s r

/-- Everything a step can do: its core was Running, and it took `cancel` or ran one instruction. -/
theorem engineStep_cases (h : engineStep s = .next t) :
    s.status = .running ∧ ((s.cancel = true ∧ t = takeCancel s) ∨ runInstruction (pollCancel s) = .next t) := by
  unfold engineStep at h
  cases hs : s.status <;> simp only [hs] at h <;> try contradiction
  refine ⟨rfl, ?_⟩
  split at h
  · next hd =>
    simp only [cancelDue, Bool.and_eq_true] at hd
    exact .inl ⟨hd.1, by simpa using h.symm⟩
  · cases hr : runInstruction (pollCancel s) with
    | next u => simp only [hr] at h; exact .inr h
    | refused r => exact absurd hr (runInstruction_not_refused _ r)
    | fault r =>
      simp only [hr] at h
      split at h
      · next hc => exact .inl ⟨hc, by simpa using h.symm⟩
      · contradiction

end Sys2Proof.Machine
end

