-- ==== Sys2Proof/Laws/Fetch.lean ====
section
/-! SUPPORT. The fetch of an instruction whose words the memory holds: how `fetchInstr` follows from `decode`. -/

namespace Sys2Proof.Machine

variable {s : State}

theorem admitsAddr_mono {c : Config} {a b : Nat} (h : admitsAddr c b = true) (hab : a ≤ b) : admitsAddr c a = true := by
  unfold admitsAddr at *
  split <;> simp_all
  omega

/-- A read at an admitted natural address gives the cell. -/
theorem memRead_nat {n : Nat} (h : admitsAddr s.config n = true) : memRead (n : Int) s = .ok (s.mem.read n) := by
  rw [memRead_of_ok (checkAddr_of_nonneg (by omega) (by simpa using h))]
  simp

/-- The parameter words of an instruction whose addresses are all admitted. -/
theorem readParams_of_admits (n a : Nat) (h : ∀ k, k < n → admitsAddr s.config (a + k) = true) :
    readParams a n s = .ok ((List.range' a n).map s.mem.read) := by
  induction n generalizing a with
  | zero => rfl
  | succ n ih =>
    simp only [readParams]
    rw [memRead_nat (by simpa using h 0 (by omega)),
      ih (a + 1) fun k hk => by simpa [Nat.add_assoc, Nat.add_comm 1 k] using h (k + 1) (by omega)]
    simp [bind, Except.bind, List.range'_succ]

theorem Opcode.arity_le (op : Opcode) : op.arity ≤ 3 := by cases op <;> decide

theorem Header.build_width (h : Header) (raws : List Int) : (h.build raws).width = h.op.arity + 1 := by
  obtain ⟨op, m1, m2, m3⟩ := h
  cases op <;> rfl

/-- Only as many parameter words matter as the opcode has parameters. -/
theorem Header.build_take (h : Header) (a b c : Int) : h.build [a, b, c] = h.build ([a, b, c].take h.op.arity) := by
  obtain ⟨op, m1, m2, m3⟩ := h
  cases op <;> rfl

/-- When the words at `pc` decode and the instruction ends at an admitted address, the fetch gives the instruction. -/
theorem fetchInstr_of_decode {i : Instr} {rest : List Int}
    (hd : decode [s.mem.read s.pc, s.mem.read (s.pc + 1), s.mem.read (s.pc + 2), s.mem.read (s.pc + 3)] = .ok (i, rest))
    (ha : admitsAddr s.config (s.pc + i.width - 1) = true) : fetchInstr s = .ok i := by
  simp only [decode] at hd
  cases hh : decodeHeader (s.mem.read s.pc) with
  | error e => simp [hh] at hd
  | ok h =>
    simp only [hh] at hd
    split at hd
    · simp at hd
    · simp only [Except.ok.injEq, Prod.mk.injEq] at hd
      obtain ⟨rfl, _⟩ := hd
      rw [Header.build_width] at ha
      unfold fetchInstr
      rw [memRead_nat (admitsAddr_mono ha (by omega))]
      simp only [bind, Except.bind, hh]
      rw [readParams_of_admits _ _ fun k hk => admitsAddr_mono ha (by omega), Header.build_take]
      have := Opcode.arity_le h.op
      have : h.op.arity = 0 ∨ h.op.arity = 1 ∨ h.op.arity = 2 ∨ h.op.arity = 3 := by omega
      rcases this with h | h | h | h <;> simp [h, List.range'_succ]

/-- An operand loads the same whether or not the model counts the instruction. -/
theorem load_pollCancel (p : Operand) (s : State) : load p (pollCancel s) = load p s := by
  simp [load, effectiveAddr, memRead_congr (s := s) (u := pollCancel s) (by simp) (by simp)]

end Sys2Proof.Machine
end

