-- ==== Sys2Proof/Laws/PerInstr.lean ====
section
/-! SUPPORT. Facts about the instructions as syntax, one lemma per constructor. -/

namespace Sys2Proof.Laws.EncodeWidth

/-- The encoding has as many words as the instruction's consumption width, 1 to 4 of them (spec/30_encoding.md R50), and its
opcode field has the instruction's arity. -/
def Statement (i : Instr) : Prop := (encode i).length = i.width ∧ i.width ≤ 4 ∧ i.header.op.arity + 1 = i.width

theorem add (p1 p2 p3 : Operand) : Statement (.add p1 p2 p3) := ⟨rfl, by simp [Instr.width, Instr.operands], rfl⟩
theorem multiply (p1 p2 p3 : Operand) : Statement (.multiply p1 p2 p3) := ⟨rfl, by simp [Instr.width, Instr.operands], rfl⟩
theorem input (p1 : Operand) : Statement (.input p1) := ⟨rfl, by simp [Instr.width, Instr.operands], rfl⟩
theorem output (p1 : Operand) : Statement (.output p1) := ⟨rfl, by simp [Instr.width, Instr.operands], rfl⟩
theorem jumpIfTrue (p1 p2 : Operand) : Statement (.jumpIfTrue p1 p2) := ⟨rfl, by simp [Instr.width, Instr.operands], rfl⟩
theorem jumpIfFalse (p1 p2 : Operand) : Statement (.jumpIfFalse p1 p2) := ⟨rfl, by simp [Instr.width, Instr.operands], rfl⟩
theorem lessThan (p1 p2 p3 : Operand) : Statement (.lessThan p1 p2 p3) := ⟨rfl, by simp [Instr.width, Instr.operands], rfl⟩
theorem equals (p1 p2 p3 : Operand) : Statement (.equals p1 p2 p3) := ⟨rfl, by simp [Instr.width, Instr.operands], rfl⟩
theorem adjustRelativeBase (p1 : Operand) : Statement (.adjustRelativeBase p1) := ⟨rfl, by simp [Instr.width, Instr.operands], rfl⟩
theorem halt : Statement .halt := ⟨rfl, by simp [Instr.width, Instr.operands], rfl⟩

end Sys2Proof.Laws.EncodeWidth
end

