-- ==== Sys2Proof/Laws/Ports.lean ====
section
/-! SUPPORT. What an instruction does does not depend on what its platform does at its ports meanwhile: with values appended to
its input channel, with fewer values left in its output channel, with `cancel` set, it has the same effect. -/

namespace Sys2Proof.Machine

/-- The core at other ports: `x` appended to its input channel, `o` in its output channel, other values at `cancel`. -/
def atPorts (x o : List Int) (c : Bool) (g w : Nat) (s : State) : State :=
  { s with inChan := s.inChan ++ x, outChan := o, cancel := c, cancelAge := g, cancelDraw := w }

variable {s t : State} {x o : List Int} {c : Bool} {g w : Nat}

theorem load_atPorts (p : Operand) : load p (atPorts x o c g w s) = load p s := rfl
theorem binary_atPorts (f) (p q : Operand) : binary f p q (atPorts x o c g w s) = binary f p q s := rfl
theorem store_atPorts (p : Operand) (v : Int) : store p v (atPorts x o c g w s) = (store p v s).map (atPorts x o c g w) := by
  unfold store memWrite
  show (match effectiveAddr p s with | none => _ | some a => match checkAddr a s with | .error e => _ | .ok n => _) = _
  cases effectiveAddr p s with
  | none => rfl
  | some a =>
    simp only
    cases checkAddr a s <;> rfl

/-- The result `r` at other ports is that of the step from `s` to `t`, which emitted `e`. -/
def Ported (x o : List Int) (c : Bool) (g w : Nat) (s t : State) (r : Result) : Prop :=
  ∃ e, t.outChan = s.outChan ++ e ∧ r = .next (atPorts x (o ++ e) c g w t)

/-- An instruction that settles without emitting does so at other ports. -/
theorem settle_ported {r : Except Raised State} (h : settle s r = .next t) (hr : ∀ u, r = .ok u → u.outChan = s.outChan) :
    Ported x o c g w s t (settle (atPorts x o c g w s) (r.map (atPorts x o c g w))) := by
  cases r with
  | error e =>
    simp only [settle, Host.Outcome.next.injEq] at h
    subst h
    exact ⟨[], by simp, by simp [settle, Except.map, atPorts, takeFault]⟩
  | ok u =>
    simp only [settle, Host.Outcome.next.injEq] at h
    subst h
    exact ⟨[], by simp [hr u rfl], by simp [settle, Except.map, atPorts]⟩

/-- What an instruction does, it does at other ports too. -/
theorem exec_ported {i : Instr} (h : exec i s = .next t) (ho : o.length ≤ s.outChan.length) :
    Ported x o c g w s t (exec i (atPorts x o c g w s)) := by
  have three : ∀ f p1 p2 p3, threeParam f p1 p2 p3 s = .next t →
      Ported x o c g w s t (threeParam f p1 p2 p3 (atPorts x o c g w s)) := by
    intro f p1 p2 p3 h
    unfold threeParam at h ⊢
    rw [binary_atPorts]
    simp only [store_atPorts]
    have := settle_ported (x := x) (o := o) (c := c) (g := g) (w := w) h (by
      intro u hu
      cases hb : binary f p1 p2 s with
      | error e => simp [hb, bind, Except.bind] at hu
      | ok v => cases hs : store p3 v s with
        | error e => simp [hb, hs, bind, Except.bind] at hu
        | ok y => simp [hb, hs, bind, Except.bind] at hu; obtain ⟨d, _, _, _, rfl⟩ := store_ok.mp hs; subst hu; simp [advance])
    refine (congrArg (Ported x o c g w s t) ?_).mp this
    congr 1
    cases hb : binary f p1 p2 s with
    | error e => rfl
    | ok v =>
      cases hs : store p3 v s with
      | error e => simp [hs, bind, Except.bind, Except.map]
      | ok y => simp [hs, bind, Except.bind, Except.map]; rfl
  have jump : ∀ k p1 p2, jumpWhen k p1 p2 s = .next t → Ported x o c g w s t (jumpWhen k p1 p2 (atPorts x o c g w s)) := by
    intro k p1 p2 h
    unfold jumpWhen at h ⊢
    simp only [load_atPorts]
    have := settle_ported (x := x) (o := o) (c := c) (g := g) (w := w) h (by
      intro u hu
      cases h1 : load p1 s with
      | error e => simp [h1, bind, Except.bind] at hu
      | ok v => 
        cases hk : k v with
        | false => simp [h1, hk, bind, Except.bind] at hu; subst hu; simp [advance]
        | true =>
          cases h2 : load p2 s with
          | error e => simp [h1, h2, hk, bind, Except.bind] at hu
          | ok y => by_cases h0 : y < 0 <;> simp [h1, h2, hk, bind, Except.bind, jumpTo, h0] at hu; subst hu; simp)
    refine (congrArg (Ported x o c g w s t) ?_).mp this
    congr 1
    cases h1 : load p1 s with
    | error e => rfl
    | ok v =>
      cases hk : k v with
      | false => simp [hk, bind, Except.bind, Except.map]; rfl
      | true =>
        cases h2 : load p2 s with
        | error e => simp [hk, bind, Except.bind, Except.map]
        | ok y => by_cases h0 : y < 0 <;> simp [hk, bind, Except.bind, Except.map, jumpTo, h0]; rfl
  cases i with
  | add p1 p2 p3 => exact three _ _ _ _ h
  | multiply p1 p2 p3 => exact three _ _ _ _ h
  | lessThan p1 p2 p3 => exact three _ _ _ _ h
  | equals p1 p2 p3 => exact three _ _ _ _ h
  | jumpIfTrue p1 p2 => exact jump _ _ _ h
  | jumpIfFalse p1 p2 => exact jump _ _ _ h
  | halt =>
    simp only [exec, execHalt, Host.Outcome.next.injEq] at h ⊢
    subst h; exact ⟨[], by simp, by simp [atPorts, setHalted]⟩
  | adjustRelativeBase p =>
    simp only [exec, execAdjustRelativeBase] at h ⊢
    have := settle_ported (x := x) (o := o) (c := c) (g := g) (w := w) h (by
      intro u hu
      cases h1 : load p s with
      | error e => simp [h1, bind, Except.bind] at hu
      | ok v => by_cases hf : s.config.admitsWord (s.rb + v) = true <;> simp [h1, bind, Except.bind, result, hf] at hu; subst hu; simp [advance])
    refine (congrArg (Ported x o c g w s t) ?_).mp this
    congr 1
    rw [load_atPorts]
    cases h1 : load p s with
    | error e => rfl
    | ok v =>
      by_cases hf : s.config.admitsWord (s.rb + v) = true
      · simp [bind, Except.bind, Except.map, result, hf, atPorts]; rfl
      · simp [bind, Except.bind, Except.map, result, hf, atPorts]
  | output p =>
    simp only [exec, execOutput] at h ⊢
    rw [load_atPorts]
    cases h1 : load p s with
    | error e => simp [h1] at h ⊢; subst h; exact ⟨[], by simp, by simp [atPorts, takeFault]⟩
    | ok v =>
      cases hf : channelFull s.config s.outChan with
      | true => simp [h1, hf] at h
      | false =>
        simp [h1, hf] at h
        have : channelFull (atPorts x o c g w s).config (atPorts x o c g w s).outChan = false := by
          cases hd : s.config.chanDepth with
          | none => simp [channelFull, atPorts, hd]
          | some d =>
            simp only [channelFull, atPorts, hd, decide_eq_false_iff_not, not_le] at hf ⊢
            exact decide_eq_false (not_le.mpr (lt_of_le_of_lt ho hf))
        simp [this]; subst h; exact ⟨[v], by simp [advance, emit], by simp [atPorts, advance, emit, setPc, setOut]⟩
  | input p =>
    simp only [exec, execInput] at h ⊢
    cases hq : s.inChan with
    | nil => simp [inGet, hq] at h
    | cons v q =>
      have h1 : inGet s = some (v, setIn q s) := by simp [inGet, hq]
      have h2 : inGet (atPorts x o c g w s) = some (v, atPorts x o c g w (setIn q s)) := by simp [inGet, hq, atPorts, setIn]
      simp only [h1] at h
      simp only [h2]
      have := settle_ported (s := setIn q s) (x := x) (o := o) (c := c) (g := g) (w := w) h (by
        intro u hu
        by_cases hf : s.config.admitsWord v = true <;> simp [bind, Except.bind, result, hf] at hu
        cases hs : store p v (setIn q s) with
        | error e => simp [hs] at hu
        | ok y => simp [hs] at hu; obtain ⟨d, _, _, _, rfl⟩ := store_ok.mp hs; subst hu; simp [advance])
      have : Ported x o c g w (setIn q s) t (settle (atPorts x o c g w (setIn q s)) (do
          let r ← result v (atPorts x o c g w (setIn q s))
          let t ← store p r (atPorts x o c g w (setIn q s))
          .ok (advance 2 t))) := by
        refine (congrArg (Ported x o c g w _ t) ?_).mp this
        congr 1
        have hr : result v (atPorts x o c g w (setIn q s)) = result v (setIn q s) := rfl
        rw [hr]
        cases result v (setIn q s) with
        | error e => rfl
        | ok r =>
          simp only [bind, Except.bind, store_atPorts]
          cases store p r (setIn q s) <;> rfl
      exact this

theorem fetchInstr_atPorts : fetchInstr (atPorts x o c g w s) = fetchInstr s := fetchInstr_congr rfl rfl rfl

/-- What a whole instruction does, fetched or not, it does at other ports too: provers of pipelines cite this. -/
theorem runInstruction_ported (h : runInstruction s = .next t) (ho : o.length ≤ s.outChan.length) :
    Ported x o c g w s t (runInstruction (atPorts x o c g w s)) := by
  unfold runInstruction at h ⊢
  rw [fetchInstr_atPorts]
  cases hf : fetchInstr s with
  | error e => simp [hf] at h ⊢; subst h; exact ⟨[], by simp, by simp [atPorts, takeFault]⟩
  | ok i => simp only [hf] at h ⊢; exact exec_ported h ho
end Sys2Proof.Machine
end

