-- ==== Sys2Proof/Laws/Pipeline.lean ====
section
/-! SUPPORT. What a step of a pipeline can do, and the ring: one lemma for each kind of choice, and the small lemmas of the
ring's indices, of `view`, `putBack` and `propagate`. -/

namespace Sys2Proof.Machine

variable {p q : Pipeline} {i j n : Nat} {s t : State}

/-! ### The ring -/

theorem outIndex_eq (h : i < n) : outIndex n i = if i + 1 = n then 0 else i + 1 := by
  unfold outIndex
  split
  · next h' => rw [h', Nat.mod_self]
  · exact Nat.mod_eq_of_lt (by omega)

theorem outIndex_lt (h : i < n) : outIndex n i < n := Nat.mod_lt _ (by omega)

/-- Different instances write different channels. -/
theorem outIndex_ne (hi : i < n) (hj : j < n) (h : i ≠ j) : outIndex n i ≠ outIndex n j := by
  rw [outIndex_eq hi, outIndex_eq hj]
  split <;> split <;> omega

/-- With two instances or more, none writes the channel it reads. -/
theorem outIndex_ne_self (hi : i < n) (hn : 1 < n) : outIndex n i ≠ i := by
  rw [outIndex_eq hi]
  split <;> omega

/-! ### What a step can do -/

theorem view_some (h : view p i = some s) :
    ∃ u, p.insts[i]? = some u ∧ s = { u with outChan := channel p (outIndex p.insts.length i) } := by
  unfold view at h
  cases hu : p.insts[i]? with
  | none => simp [hu] at h
  | some u => simp [hu] at h; exact ⟨u, rfl, h.symm⟩

theorem step_run : p.step (.run i) = some q ↔
    ∃ s t, view p i = some s ∧ s.status = .running ∧ runInstruction s = .next t ∧ q = propagate (putBack p i t) := by
  simp only [Pipeline.step]
  cases view p i with
  | none => simp
  | some s =>
    by_cases hs : s.status = .running
    · cases hr : runInstruction s with
      | next t => simp [hs, hr, @eq_comm _ q]
      | fault r => simp [hs, hr]
      | refused r => simp [hs, hr]
    · simp [hs]

theorem step_cancel : p.step (.cancel i) = some q ↔
    ∃ s, p.insts[i]? = some s ∧ s.status = .running ∧ s.cancel = true ∧ q = ⟨p.insts.set i (takeCancel s)⟩ := by
  simp only [Pipeline.step]
  cases p.insts[i]? with
  | none => simp
  | some s =>
    by_cases hs : s.status = .running ∧ s.cancel = true
    · simp [hs, @eq_comm _ q]
    · simp only [hs, if_false]
      constructor
      · simp
      · rintro ⟨u, hu, h1, h2, _⟩
        cases hu
        exact absurd ⟨h1, h2⟩ hs

/-- A Running instance that cannot run waits. -/
theorem waits_of_no_step (hv : view p i = some s) (hr : s.status = .running) (h : p.step (.run i) = none) :
    runInstruction s = .fault .blockedOnInput ∨ runInstruction s = .fault .blockedOnOutput := by
  cases hx : runInstruction s with
  | next t => rw [step_run.mpr ⟨s, t, hv, hr, hx, rfl⟩] at h; contradiction
  | refused r => exact absurd hx (runInstruction_not_refused s r)
  | fault r =>
    unfold runInstruction at hx
    cases hf : fetchInstr s with
    | error e => simp [hf] at hx
    | ok i =>
      simp only [hf] at hx
      rcases exec_no_step hx with ⟨_, _, _, rfl⟩ | ⟨_, _, _, _, _, rfl⟩ <;> simp

/-- What an instruction emits stands behind what its output channel held. -/
theorem runInstruction_emits (h : runInstruction s = .next t) : ∃ emitted, t.outChan = s.outChan ++ emitted := by
  rcases runInstruction_cases h with ⟨e, _, rfl⟩ | ⟨i, _, he⟩
  · exact ⟨[], by simp⟩
  · cases he <;> first | exact ⟨_, rfl⟩ | exact ⟨[], (by simp)⟩

@[simp] theorem putBack_length (p : Pipeline) (i : Nat) (t : State) : (putBack p i t).insts.length = p.insts.length := by
  simp [putBack]

/-- What `putBack` makes of each instance. -/
theorem putBack_getElem? (hi : i < p.insts.length) (k : Nat) :
    (putBack p i t).insts[k]? =
      ((if k = i then some { t with outChan := [] } else p.insts[k]?).map fun r =>
        if k = outIndex p.insts.length i then
          { r with inChan := r.inChan ++ t.outChan.drop (channel p (outIndex p.insts.length i)).length }
        else r) := by
  simp only [putBack, List.getElem?_modify, List.getElem?_set]
  by_cases h : k = i
  · subst h; simp [hi, eq_comm]
  · simp [h, Ne.symm h, eq_comm]

/-! ### The propagation of `cancel` -/

theorem raiseCancel_of_cancel (h : s.cancel = true) : raiseCancel s = s := by simp [raiseCancel, h]

@[simp] theorem raiseCancel_raiseCancel (s : State) : raiseCancel (raiseCancel s) = raiseCancel s :=
  raiseCancel_of_cancel (raiseCancel_cancel s)

theorem propagate_of_faulted (h : ∃ s ∈ p.insts, s.status = .faulted) : propagate p = ⟨p.insts.map raiseCancel⟩ := by
  obtain ⟨s, hs, hf⟩ := h
  exact if_pos (List.any_eq_true.mpr ⟨s, hs, by simp [hf]⟩)

theorem propagate_of_not_faulted (h : ∀ s ∈ p.insts, s.status ≠ .faulted) : propagate p = p := by
  refine if_neg ?_
  simpa using h

/-- An instruction leaves what stands at the `cancel` input, and takes at most one value from its input channel. -/
theorem runInstruction_ports (h : runInstruction s = .next t) :
    t.cancel = s.cancel ∧ t.cancelAge = s.cancelAge ∧ t.cancelDraw = s.cancelDraw ∧ t.inChan.length ≤ s.inChan.length := by
  rcases runInstruction_cases h with ⟨e, _, rfl⟩ | ⟨i, _, he⟩
  · simp
  · cases he <;> simp_all

/-- An instruction has the same effect when `cancel` has been set. -/
theorem runInstruction_raiseCancel (h : runInstruction s = .next t) :
    runInstruction (raiseCancel s) = .next (raiseCancel t) := by
  obtain ⟨h1, _, h3, _⟩ := runInstruction_ports h
  unfold raiseCancel
  rw [h1, h3]
  split
  · exact h
  · next hc =>
    obtain ⟨e, he, hr⟩ := runInstruction_ported (x := []) (c := true) (g := 0) (w := s.cancelDraw + 1) h (Nat.le_refl _)
    simpa [atPorts, ← he, hc] using hr

end Sys2Proof.Machine
end

