-- ==== Sys2Proof/Tests/Slice0.lean ====
section
/-! SUPPORT. Tests of the model against the spec's encodings and vectors (spec/95_test_vectors.md; the number of the vector
stands in each comment), the smoke tests of WellFormed, and a witness of the hypotheses of each statement. -/

namespace Sys2Proof.Tests

open Sys2Proof Sys2Proof.Machine

/-- A core at the spec's parameters with an image, an input and a relative base. -/
def core (image input : List Int) (rb : Int) : State := setRb rb (boot Config.spec image input)

/-- An implementation with 8-bit words, addresses up to 20 and channels of one value. -/
def small : Config := ⟨some 8, some 20, some 1⟩

/-- Whether a result is a next state in which `f` holds. -/
def ran (r : Result) (f : State → Bool) : Bool :=
  match r with
  | .next t => f t
  | .fault _ => false
  | .refused _ => false

theorem next_of_ran {r : Result} {f : State → Bool} (h : ran r f = true) : ∃ t, r = .next t ∧ f t = true := by
  cases r with
  | next t => exact ⟨t, rfl, h⟩
  | fault r => contradiction
  | refused r => contradiction

/-- The registers of a state that a fault record is held against. -/
def faultedWith (code : FaultCode) (info : Int) (pc : Nat) (t : State) : Bool :=
  t.status == .faulted && t.faultCode == some code && t.faultInfo == some info && t.pc == pc

def pos (n : Int) : Operand := ⟨n, .position⟩
def imm (n : Int) : Operand := ⟨n, .immediate⟩
def rel (n : Int) : Operand := ⟨n, .relative⟩

/-! ### WellFormed refuses each kind of ill-formed term -/

theorem test_illformed_add : (Instr.add (pos 1) (pos 2) (imm 3)).wellFormed Config.spec = false := by decide
theorem test_illformed_multiply : (Instr.multiply (pos 1) (pos 2) (imm 3)).wellFormed Config.spec = false := by decide
theorem test_illformed_input : (Instr.input (imm 3)).wellFormed Config.spec = false := by decide
theorem test_illformed_lessThan : (Instr.lessThan (pos 1) (pos 2) (imm 3)).wellFormed Config.spec = false := by decide
theorem test_illformed_equals : (Instr.equals (pos 1) (pos 2) (imm 3)).wellFormed Config.spec = false := by decide
theorem test_illformed_parameter_word : (Instr.output (pos 128)).wellFormed small = false := by decide
theorem test_illformed_negative_word : (Instr.jumpIfTrue (pos 1) (pos (-129))).wellFormed small = false := by decide
theorem test_illformed_opcode_word : (Instr.output (rel 1)).wellFormed small = false := by decide
theorem test_wellformed_immediate_source : (Instr.output (imm 3)).wellFormed Config.spec = true := by decide
theorem test_wellformed_small : (Instr.output (pos 127)).wellFormed small = true := by decide

/-! ### Decoding: words written out by hand from R51, R54, R55 -/

/-- 21001: `op` 01, `m1` 0, `m2` 1, `m3` 2. -/
theorem test_decode_add : decode [21001, 5, -6, 7] = .ok (.add (pos 5) (imm (-6)) (rel 7), []) := by decide
/-- S3: "`MUL [4], #3, [4]`". -/
theorem test_decode_multiply : decode [1002, 4, 3, 4, 33] = .ok (.multiply (pos 4) (imm 3) (pos 4), [33]) := by decide
theorem test_decode_input : decode [203, 3] = .ok (.input (rel 3), []) := by decide
theorem test_decode_output : decode [104, -77] = .ok (.output (imm (-77)), []) := by decide
theorem test_decode_jumpIfTrue : decode [2105, 1, 2] = .ok (.jumpIfTrue (imm 1) (rel 2), []) := by decide
theorem test_decode_jumpIfFalse : decode [1006, 101, 0] = .ok (.jumpIfFalse (pos 101) (imm 0), []) := by decide
theorem test_decode_lessThan : decode [1207, 1, 2, 3] = .ok (.lessThan (rel 1) (imm 2) (pos 3), []) := by decide
theorem test_decode_equals : decode [20108, 1, 2, 3] = .ok (.equals (imm 1) (pos 2) (rel 3), []) := by decide
theorem test_decode_adjustRelativeBase : decode [9, 2] = .ok (.adjustRelativeBase (pos 2), []) := by decide
theorem test_decode_halt : decode [99, 1, 2, 3] = .ok (.halt, [1, 2, 3]) := by decide
/-- F6, F7: the opcode check comes before the mode check, and a negative word has no fields. -/
theorem test_decode_invalidOpcode :
    decode [398] = .error (.invalidOpcode 398) ∧ decode [-99] = .error (.invalidOpcode (-99)) := by decide
/-- F13, F19, F22: an illegal mode, an unused digit, a digit above the fifth. -/
theorem test_decode_invalidMode :
    decode [30001, 0, 0, 0] = .error (.invalidMode 30001) ∧ decode [1004, 0] = .error (.invalidMode 1004) ∧
      decode [1000099] = .error (.invalidMode 1000099) := by decide
theorem test_decode_truncated : decode [1, 2, 3] = .error .truncated := by decide

/-! ### The interface the host uses -/

theorem test_decodeTableWord :
    decodeTableWord 16 1202 = some (.multiply (rel 0) (imm 0) (pos 0)) ∧ decodeTableWord 8 99 = some .halt ∧
      decodeTableWord 8 0 = none := by decide
theorem test_withFetchWord_runs : ran (step (State.reset.withFetchWord 16 1101)) (fun t => t.pc == 4 && t.mem.read 0 == 0) = true := by
  decide
theorem test_withFetchWord_halts : ran (step (State.reset.withFetchWord 8 99)) (fun t => t.status == .halted) = true := by decide

/-! ### One step of each instruction -/

/-- A3: all Relative. -/
theorem test_add_relative :
    ran (step (core [22201, 1, 2, 3, 99, 30, 12, 0] [] 4)) (fun t => t.mem.read 7 == 42 && t.pc == 4 && t.rb == 4) = true := by
  decide
/-- A7: no wrap at 2^63. -/
theorem test_add_exact :
    ran (step (core [1101, 9223372036854775807, 1, 5, 99, 0] [] 0)) (fun t => t.mem.read 5 == 9223372036854775808) = true := by
  decide
/-- M2. -/
theorem test_multiply_negative : ran (step (core [1102, -3, 4, 5, 99, 0] [] 0)) (fun t => t.mem.read 5 == -12) = true := by decide
/-- M3: storing the value an unwritten cell reads as. -/
theorem test_multiply_zero : ran (step (core [1102, 0, -7, 5, 99, 55] [] 0)) (fun t => t.mem.read 5 == 0 && t.mem.wf) = true := by
  decide
/-- I2: Relative store beyond the image. -/
theorem test_input : ran (step (core [203, 3, 99] [-12, 8] 7)) (fun t => t.mem.read 10 == -12 && t.inChan == [8] && t.pc == 2) = true := by
  decide
/-- F24: the value is taken before the store faults. -/
theorem test_input_immediate :
    ran (step (core [103, 0, 99] [42] 0)) (fun t => faultedWith .invalidOperand 0 0 t && t.inChan == []) = true := by decide
/-- B1. -/
theorem test_input_blocked : step (core [3, 0] [] 0) = .fault .blockedOnInput := rfl
/-- O3. -/
theorem test_output : ran (step (core [204, 2, 99, 0, 5] [] 2)) (fun t => t.outChan == [5] && t.pc == 2) = true := by decide
/-- R119: a finite channel that is full. -/
theorem test_output_full : step { boot small [4, 1] [] with outChan := [7] } = .fault .blockedOnOutput := rfl
/-- J7: Relative target. -/
theorem test_jumpIfTrue : ran (step (core [2105, 1, 2, 99, 104, 7, 99, 4] [] 5)) (fun t => t.pc == 4) = true := by decide
/-- F35: not taken, the target is not loaded. -/
theorem test_jumpIfTrue_lazy : ran (step (core [5, 3, -1, 0, 99] [] 0)) (fun t => t.pc == 3 && t.status == .running) = true := by decide
/-- J4. -/
theorem test_jumpIfFalse : ran (step (core [1106, 0, 4, 99, 104, 7, 99] [] 0)) (fun t => t.pc == 4) = true := by decide
/-- J5. -/
theorem test_jumpIfFalse_not_taken : ran (step (core [1106, 5, 4, 99] [] 0)) (fun t => t.pc == 3) = true := by decide
/-- L1, L5: signed, and at any size. -/
theorem test_lessThan : ran (step (core [1107, -1, 0, 5, 99, 7] [] 0)) (fun t => t.mem.read 5 == 1) = true := by decide
theorem test_lessThan_large :
    ran (step (core [21107, 18446744073709551615, 18446744073709551616, -1, 99] [] 10)) (fun t => t.mem.read 9 == 1) = true := by
  decide
/-- E2, E4. -/
theorem test_equals_sign : ran (step (core [1108, 3, -3, 5, 99, 7] [] 0)) (fun t => t.mem.read 5 == 0) = true := by decide
theorem test_equals_relative : ran (step (core [2208, 0, 1, 5, 99, 4, 4] [] 5)) (fun t => t.mem.read 5 == 1) = true := by decide
/-- RB4: the operand is resolved at the old base. -/
theorem test_adjustRelativeBase : ran (step (core [209, 1, 99, 0, 0, 0, 30] [] 5)) (fun t => t.rb == 35 && t.pc == 2) = true := by
  decide
/-- H2. -/
theorem test_halt :
    ran (step (core [99] [5, 6] 9)) (fun t => t.status == .halted && t.pc == 0 && t.rb == 9 && t.inChan == [5, 6]) = true := by decide

/-! ### Faults, reset, platform -/

/-- F28, F32, F27. -/
theorem test_fault_store : ran (step (core [1101, 1, 1, -5] [] 0)) (faultedWith .addressFault (-5) 0) = true := by decide
theorem test_fault_jump : ran (step (core [1105, 1, -3] [] 0)) (faultedWith .addressFault (-3) 0) = true := by decide
theorem test_fault_load : ran (step (core [1, -1, 0, 0] [] 0)) (faultedWith .addressFault (-1) 0) = true := by decide
/-- F23, F26: the loads come before the store. -/
theorem test_fault_destination : ran (step (core [11101, 0, 0, 0] [] 0)) (faultedWith .invalidOperand 0 0) = true := by decide
theorem test_fault_order : ran (step (core [11001, -1, 0, 0] [] 0)) (faultedWith .addressFault (-1) 0) = true := by decide
/-- F1, F11. -/
theorem test_fault_opcode : ran (step State.reset) (faultedWith .invalidOpcode 0 0) = true := by decide
theorem test_fault_mode : ran (step (core [301, 0, 0, 0] [] 0)) (faultedWith .invalidMode 301 0) = true := by decide
/-- R103 with `WORD_BITS` 8: 100 + 28 is one more than 127. -/
theorem test_fault_capacity : ran (step (boot small [1, 4, 5, 6, 100, 28] [])) (faultedWith .capacityExceeded 128 0) = true := by decide
/-- R36 with `ADDR_MAX` 20: the parameter word of an instruction at 20 lies above. -/
theorem test_fault_fetch :
    ran (step { boot small [] [] with pc := 20, mem := [(20, 4)] }) (faultedWith .capacityExceeded 21 20) = true := by decide
/-- R172: spaces, a sign, a line ending, and texts outside the grammar. -/
theorem test_loader :
    parseText [' ', '-', '1', '2', ' ', ',', '0', '7', '\r', '\n'] = some [-12, 7] ∧ parseText ['1', ',', ',', '2'] = none ∧
      parseText ['-', ' ', '1'] = none := by decide
/-- R151, R150 with N = 2: instance 0 reads its phase. -/
theorem test_pipeline_step :
    ((Pipeline.build Config.spec [3, 0] 7 [5, 6]).step (.run 0)).map (fun p => (channel p 0, channel p 1)) = some ([7], [6]) := by
  decide
/-- R42: the fetch reads, the two operand reads, the write, of vector A1. -/
theorem test_requests :
    requests (core [1, 5, 6, 7, 99, 20, 22, 0] [] 0) =
      [.fetch 0, .fetch 1, .fetch 2, .fetch 3, .load 5, .load 6, .store 7] := by decide

/-! ### A witness of the hypotheses of each statement -/

/-- A step that is possible. -/
theorem witness_step : (core [1101, 2, 3, 4, 99] [] 0).Inv ∧ ∃ t, step (core [1101, 2, 3, 4, 99] [] 0) = .next t := by
  refine ⟨⟨by decide, by decide, by decide⟩, ?_⟩
  exact (next_of_ran (f := fun _ => true) (by decide)).imp fun _ h => h.1

theorem witness_ResetPortGivesResetState : (0 < [7, 0].length ∧ 1 < [7, 0].length) ∧ [7, 0].length ≤ 2 := by decide

theorem witness_StepKeepsInvariant :
    ∃ s t : State, s.Inv ∧ step s = .next t := ⟨_, witness_step.2.choose, witness_step.1, witness_step.2.choose_spec⟩

/-- With finite limits, and with a step that writes the largest word. -/
theorem witness_StepKeepsWithinLimits :
    (boot small [1, 4, 5, 6, 100, 27] []).WithinLimits ∧ ∃ t, step (boot small [1, 4, 5, 6, 100, 27] []) = .next t ∧
      (t.mem.read 6 == 127) = true :=
  ⟨⟨by decide, by decide⟩, next_of_ran (by decide)⟩

theorem witness_TerminalStatesHaveNoStep :
    (setHalted State.reset).status ≠ .running ∧ (takeCancel State.reset).status ≠ .running ∧
      (takeFault ⟨.invalidMode, 301⟩ State.reset).status ≠ .running := by decide

/-- The boundary addresses 0 and `ADDR_MAX`. -/
theorem witness_MemoryRoundTrip :
    (core [5] [] 0).mem.wf = true ∧ (0 : Int) ≤ 0 ∧ admitsAddr (core [5] [] 0).config (Int.toNat 0) = true ∧
      admitsAddr small (Int.toNat 20) = true := by decide

theorem witness_ForbiddenAddressesFault : ((-1 : Int) < 0) ∧ (boot small [] []).config.addrMax = some 20 ∧ ((20 : Nat) : Int) < 21 := by
  decide

/-- The boundary values of each clause: addresses 0 and −1, also as `rb + raw`. -/
theorem witness_LoadInTheThreeModes :
    (core [] [] 3).config.addrMax = none ∧ (0 : Int) ≤ 0 ∧ (-1 : Int) < 0 ∧ 0 ≤ (core [] [] 3).rb + -3 ∧
      (core [] [] 3).rb + -4 < 0 := by decide
theorem witness_StoreInTheThreeModes :
    (core [] [] (-2)).config.addrMax = none ∧ (core [] [] (-2)).mem.wf = true ∧ (0 : Int) ≤ 0 ∧ (-1 : Int) < 0 ∧ 0 ≤ (core [] [] (-2)).rb + 2 ∧
      (core [] [] (-2)).rb + 1 < 0 := by decide

/-- With 8 bits: 128 and −129, the first values outside. -/
theorem witness_UnholdableResultsRaiseCapacityExceeded :
    (boot small [] []).config.wordBits = some (Nat.succPNat 7) ∧ load (imm 64) (boot small [] []) = .ok 64 ∧
      load (imm 2) (boot small [] []) = .ok 2 ∧ (2 ^ 7 : Int) - 1 < 64 * 2 ∧ (2 ^ 7 : Int) - 1 < 64 + 64 ∧
      ((-65 : Int) + -64 < -(2 ^ 7 : Int)) ∧ load (imm (-65)) (boot small [] []) = .ok (-65) ∧
      ((setRb 64 (boot small [] [])).rb + 64 = 128) := by decide

/-- A step that faults, with another fault than this one. -/
theorem witness_CapacityNeverExceededWithoutLimits :
    State.reset.config.wordBits = none ∧ State.reset.config.addrMax = none ∧ State.reset.faultCode ≠ some .capacityExceeded ∧
      ∃ t, step State.reset = .next t ∧ t.faultCode.isSome = true :=
  ⟨rfl, rfl, by decide, next_of_ran (by decide)⟩

theorem witness_EncodeOfDecode : decode [21001, 5, -6, 7, 9] = .ok (.add (pos 5) (imm (-6)) (rel 7), [9]) := by decide

/-- One word for each clause: negative, no opcode, a bad mode, an unused digit, a high digit, and an accepted word. -/
theorem witness_OpcodeWordChecks :
    (-1 : Int) < 0 ∧ 100 % 100 ∉ [1, 2, 3, 4, 5, 6, 7, 8, 9, 99] ∧ 301 % 100 = Opcode.add.number ∧
      (1 ≤ Opcode.add.arity ∧ 2 < 301 / 10 ^ 2 % 10) ∧ 1004 % 100 = Opcode.output.number ∧
      (Opcode.output.arity < 2 ∧ 1004 / 10 ^ 3 % 10 ≠ 0) ∧ 100001 % 100 = Opcode.add.number ∧ 100001 / 100000 ≠ 0 ∧
      22299 % 100 = Opcode.halt.number ∧ 22201 % 100 = Opcode.add.number ∧
      (∀ k ∈ [1, 2, 3], (k ≤ Opcode.add.arity → 22201 / 10 ^ (k + 1) % 10 ≤ 2) ∧
        (Opcode.add.arity < k → 22201 / 10 ^ (k + 1) % 10 = 0)) ∧ 22201 / 100000 = 0 := by decide

/-- The last legal place of a one-word instruction under a finite `ADDR_MAX`, and a wider one without a limit. -/
theorem witness_StepRunsDecodedInstruction :
    (let s : State := { boot small [] [] with pc := 20, mem := [(20, 99)] };
      s.status = .running ∧ s.cancel = false ∧ decode [s.mem.read s.pc, s.mem.read (s.pc + 1), s.mem.read (s.pc + 2),
          s.mem.read (s.pc + 3)] = .ok (.halt, [0, 0, 0]) ∧ admitsAddr s.config (s.pc + Instr.halt.width - 1) = true) ∧
      (let s : State := raiseCancel (core [104, 7] [] 0);
        s.status = .running ∧ s.cancel = true ∧ decode [s.mem.read s.pc, s.mem.read (s.pc + 1), s.mem.read (s.pc + 2),
            s.mem.read (s.pc + 3)] = .ok (.output (imm 7), [0, 0]) ∧
          admitsAddr s.config (s.pc + (Instr.output (imm 7)).width - 1) = true) := by decide

theorem witness_IllegalWordStepsToFault :
    (core [398] [] 0).status = .running ∧ (core [398] [] 0).cancel = false ∧ admitsAddr (core [398] [] 0).config 0 = true ∧
      398 = (core [398] [] 0).mem.read (core [398] [] 0).pc ∧ (398 : Int) % 100 ∉ [1, 2, 3, 4, 5, 6, 7, 8, 9, 99] ∧
      -1 = (core [-1] [] 0).mem.read (core [-1] [] 0).pc ∧ (-1 : Int) < 0 ∧
      301 = (core [301] [] 0).mem.read (core [301] [] 0).pc ∧ decodeHeader 301 = .error (.invalidMode 301) := by decide

/-- `pc` just above `ADDR_MAX`, the opcode word at `ADDR_MAX` itself, and the last parameter word just above it. -/
theorem witness_FetchAboveAddrMaxFaults :
    (let s := setPc 21 (boot small [] []);
      s.status = .running ∧ s.cancel = false ∧ s.config.addrMax = some 20 ∧ 20 < s.pc) ∧
      (let s := setPc 20 (boot small (List.replicate 20 0 ++ [104]) []);
        s.status = .running ∧ s.cancel = false ∧ s.config.addrMax = some 20 ∧ s.pc ≤ 20 ∧
          decodeHeader (s.mem.read s.pc) = .ok ⟨.output, .immediate, .position, .position⟩ ∧ 20 < s.pc + Opcode.output.arity) ∧
      (let s := setPc 18 (boot small (List.replicate 18 0 ++ [1101]) []);
        s.status = .running ∧ s.cancel = false ∧ s.config.addrMax = some 20 ∧ s.pc ≤ 20 ∧
          decodeHeader (s.mem.read s.pc) = .ok ⟨.add, .immediate, .immediate, .position⟩ ∧ 20 < s.pc + Opcode.add.arity) := by
  decide

/-- The destination at address 0, as `rb + raw`, and the results at the edge of 8 bits. -/
theorem witness_AddAndMultiplyResult :
    (let s := setRb 3 (boot small [] []);
      load (imm 100) s = .ok 100 ∧ load (imm 27) s = .ok 27 ∧ effectiveAddr (rel (-3)) s = some 0 ∧ (0 : Int) ≤ 0 ∧
        admitsAddr s.config (Int.toNat 0) = true ∧ s.config.admitsWord (100 + 27) = true) ∧
      (let s := boot small [] [];
        load (imm 64) s = .ok 64 ∧ load (imm (-2)) s = .ok (-2) ∧ effectiveAddr (pos 20) s = some 20 ∧
          admitsAddr s.config (Int.toNat 20) = true ∧ s.config.admitsWord (64 * -2) = true) := by decide

/-- Values of each clause: less, equal, greater. -/
theorem witness_LessThanAndEqualsResult :
    let s := core [] [] 0;
    load (imm (-1)) s = .ok (-1) ∧ load (imm 0) s = .ok 0 ∧ effectiveAddr (pos 0) s = some 0 ∧
      admitsAddr s.config (Int.toNat 0) = true ∧ s.config.admitsWord 0 = true ∧ s.config.admitsWord 1 = true ∧
      (-1 : Int) < 0 ∧ (0 : Int) ≤ 0 ∧ (-1 : Int) ≠ 0 := by decide

theorem witness_JumpResult :
    let s := core [] [] 0;
    load (imm (-1)) s = .ok (-1) ∧ (-1 : Int) ≠ 0 ∧ load (imm 0) s = .ok 0 ∧ (0 : Int) ≤ 0 := by decide

theorem witness_InputResult :
    let s := core [] [-128, 4] 0;
    s.inChan = -128 :: [4] ∧ s.config.admitsWord (-128) = true ∧ effectiveAddr (pos 0) s = some 0 ∧
      admitsAddr s.config (Int.toNat 0) = true := by decide

theorem witness_OutputResult :
    load (imm 7) (core [] [] 0) = .ok 7 ∧ (core [] [] 0).config.chanDepth = none ∧ load (imm 7) (boot small [] []) = .ok 7 ∧
      (boot small [] []).config.chanDepth = some 1 ∧ (boot small [] []).outChan.length < 1 := by decide

theorem witness_AdjustRelativeBaseResult :
    let s := setRb 100 (boot small [] []);
    load (imm 27) s = .ok 27 ∧ s.config.admitsWord (s.rb + 27) = true := by decide

/-- Each clause: first load, second load, result, Immediate, negative and too large destination. -/
theorem witness_ThreeParameterFaultOrder :
    let s := boot small [] [];
    load (pos (-1)) s = .error ⟨.addressFault, -1⟩ ∧ load (imm 64) s = .ok 64 ∧ load (pos 21) s = .error ⟨.capacityExceeded, 21⟩ ∧
      s.config.admitsWord (64 + 64) = false ∧ s.config.admitsWord (64 * 64) = false ∧ load (imm 63) s = .ok 63 ∧
      s.config.admitsWord (64 + 63) = true ∧ (imm 0).mode = .immediate ∧ effectiveAddr (pos (-1)) s = some (-1) ∧ (-1 : Int) < 0 ∧
      effectiveAddr (pos 21) s = some 21 ∧ admitsAddr s.config (Int.toNat 21) = false := by decide
/-- The clause on a result that does not fit, for LessThan and Equals: words of one bit are −1 and 0. -/
theorem witness_ThreeParameterFaultOrder_truth :
    let s := boot ⟨some 1, none, none⟩ [] [];
    load (imm (-1)) s = .ok (-1) ∧ load (imm 0) s = .ok 0 ∧ s.config.admitsWord (if (-1 : Int) < 0 then 1 else 0) = false := by
  decide

theorem witness_JumpFaults :
    let s := core [] [] 0;
    load (pos (-1)) s = .error ⟨.addressFault, -1⟩ ∧ load (imm 1) s = .ok 1 ∧ load (imm 0) s = .ok 0 ∧ load (imm (-1)) s = .ok (-1) ∧
      (-1 : Int) < 0 := by decide

/-- Each clause: empty, a value that does not fit, Immediate, negative and too large destination. -/
theorem witness_InputWaitsOrFaultsAfterTaking :
    (core [] [] 0).inChan = [] ∧ (boot small [] [128]).inChan = 128 :: [] ∧ (boot small [] [128]).config.admitsWord 128 = false ∧
      (let s := boot small [] [127];
        s.inChan = 127 :: [] ∧ s.config.admitsWord 127 = true ∧ (imm 0).mode = .immediate ∧
          effectiveAddr (rel (-1)) s = some (-1) ∧ (-1 : Int) < 0 ∧ effectiveAddr (pos 21) s = some 21 ∧
          admitsAddr s.config (Int.toNat 21) = false) := by decide

theorem witness_OutputAndAdjustFaults :
    load (pos (-1)) (core [] [] 0) = .error ⟨.addressFault, -1⟩ ∧
      (let s : State := { boot small [] [] with outChan := [7] };
        load (imm 3) s = .ok 3 ∧ s.config.chanDepth = some 1 ∧ 1 ≤ s.outChan.length) := by decide

theorem witness_WaitingInstructionsWakeUp :
    exec (.input (pos 1)) (core [] [] 0) = .fault .blockedOnInput ∧
      (let s : State := { boot small [] [] with outChan := [7] };
        s.config.chanDepth = some 1 ∧ s.outChan.length ≤ 1 ∧ exec (.output (imm 3)) s = .fault .blockedOnOutput ∧
          collect s = some (7, { boot small [] [] with outChan := [] })) :=
  ⟨rfl, rfl, by decide, rfl, rfl⟩

/-- An Output with room at depth 1; one at a full channel, which unbounded channels let step; an Add at the full channel. -/
theorem witness_FiniteDepthOnlyTakesStepsAway :
    (∃ t, exec (.output (imm 3)) (boot small [] []) = .next t ∧ (t.outChan == [3]) = true) ∧
      (let s : State := { boot small [] [] with outChan := [7] };
        let unbounded : State := { s with config := { s.config with chanDepth := none } };
        (∃ u, exec (.output (imm 3)) unbounded = .next u ∧ (u.outChan == [7, 3]) = true) ∧
          ∃ u, exec (.add (imm 1) (imm 2) (pos 0)) unbounded = .next u ∧ (u.pc == 4) = true) :=
  ⟨next_of_ran (by decide), next_of_ran (by decide), next_of_ran (by decide)⟩

/-- Both outcomes: completed, and faulted with an Immediate destination. -/
theorem witness_ThreeParameterFrame :
    (core [] [] 0).mem.wf = true ∧ (∃ t, exec (.add (imm 1) (imm 2) (pos 0)) (core [] [] 0) = .next t ∧ (t.pc == 4) = true) ∧
      (∃ t, exec (.multiply (imm 1) (imm 2) (rel 0)) (core [] [] 0) = .next t ∧ (t.mem.read 0 == 2) = true) ∧
      (∃ t, exec (.lessThan (imm 1) (imm 2) (pos 0)) (core [] [] 0) = .next t ∧ (t.mem.read 0 == 1) = true) ∧
      ∃ t, exec (.equals (imm 1) (imm 1) (imm 0)) (core [] [] 0) = .next t ∧ (t.status == .faulted) = true :=
  ⟨by decide, next_of_ran (by decide), next_of_ran (by decide), next_of_ran (by decide), next_of_ran (by decide)⟩

theorem witness_InputFrame :
    (core [] [5] 0).mem.wf = true ∧ (∃ t, exec (.input (pos 0)) (core [] [5] 0) = .next t ∧ (t.pc == 2) = true) ∧
      ∃ t, exec (.input (imm 0)) (core [] [5] 0) = .next t ∧ (t.status == .faulted) = true :=
  ⟨by decide, next_of_ran (by decide), next_of_ran (by decide)⟩

theorem witness_StorelessFrame :
    ((Instr.output (imm 1)).destination = none ∧ ∃ t, exec (.output (imm 1)) (core [] [] 0) = .next t ∧ (t.outChan == [1]) = true) ∧
      (Instr.halt.destination = none ∧ ∃ t, exec .halt (core [] [] 0) = .next t ∧ (t.status == .halted) = true) ∧
      ((Instr.adjustRelativeBase (imm 4)).destination = none ∧
        ∃ t, exec (.adjustRelativeBase (imm 4)) (core [] [] 0) = .next t ∧ (t.rb == 4) = true) ∧
      ((Instr.jumpIfTrue (imm 1) (imm (-1))).destination = none ∧
        ∃ t, exec (.jumpIfTrue (imm 1) (imm (-1))) (core [] [] 0) = .next t ∧ (t.status == .faulted) = true) ∧
      ((Instr.jumpIfFalse (imm 0) (imm 0)).destination = none ∧
        ∃ t, exec (.jumpIfFalse (imm 0) (imm 0)) (core [] [] 0) = .next t ∧ (t.pc == 0) = true) :=
  ⟨⟨rfl, next_of_ran (by decide)⟩, ⟨rfl, next_of_ran (by decide)⟩, ⟨rfl, next_of_ran (by decide)⟩,
    ⟨rfl, next_of_ran (by decide)⟩, ⟨rfl, next_of_ran (by decide)⟩⟩

/-- A fault of a decoded instruction, and one of an Input that has taken its value. -/
theorem witness_FaultsArePrecise :
    (∃ t, step (core [1, -1, 0, 0] [5] 0) = .next t ∧ (t.status == .faulted && t.inChan == [5]) = true) ∧
      ∃ t, step (core [103, 0] [5] 0) = .next t ∧ (t.status == .faulted && t.inChan == []) = true :=
  ⟨next_of_ran (by decide), next_of_ran (by decide)⟩

/-- A Running core under `cancel` whose free number of instructions is used up. -/
def dueCore : State := { core [3, 0] [] 0 with cancel := true, cancelAge := Config.cancelGrace 0 }

theorem dueCore_step : step dueCore = .next (takeCancel dueCore) := by
  simp [step, engineStep, cancelDue, dueCore, core, setRb, boot, State.reset]

theorem witness_StatusTransitions :
    (∃ t, step (core [99] [] 0) = .next t ∧ (t.status == .halted) = true) ∧
      (∃ t, step (core [0] [] 0) = .next t ∧ (t.status == .faulted) = true) ∧
      (∃ t, step dueCore = .next t ∧ t.status = .cancelled) ∧ fetchInstr (core [99] [] 0) = .ok .halt ∧
      (core [99] [] 0).cancel = false :=
  ⟨next_of_ran (by decide), next_of_ran (by decide), ⟨_, dueCore_step, rfl⟩, by decide, by decide⟩

theorem witness_OnlyAdjustRelativeBaseWritesRb :
    ∃ t, step (core [109, 5] [] 0) = .next t ∧ (t.rb != (core [109, 5] [] 0).rb) = true := next_of_ran (by decide)

theorem witness_NextProgramCounter :
    ∃ t, step (core [1105, 1, 9] [] 0) = .next t ∧ (t.status == .running) = true := next_of_ran (by decide)

/-- An instruction that completes, Halt, one that faults, one that waits. -/
theorem witness_NoInstructionReadsStatusOrFaultRecord :
    (∃ t, exec (.output (imm 1)) (core [] [] 0) = .next t ∧ (t.pc == 2) = true) ∧
      (∃ t, exec .halt (core [] [] 0) = .next t ∧ (t.status == .halted) = true) ∧
      (∃ t, exec (.output (pos (-1))) (core [] [] 0) = .next t ∧ (t.status == .faulted) = true) ∧
      exec (.input (pos 1)) (core [] [] 0) = .fault .blockedOnInput :=
  ⟨next_of_ran (by decide), next_of_ran (by decide), next_of_ran (by decide), rfl⟩

theorem witness_OnlyInputTouchesTheInputChannel :
    (∀ p, Instr.output (imm 1) ≠ .input p) ∧ (∃ t, exec (.output (imm 1)) (core [] [] 0) = .next t ∧ (t.pc == 2) = true) ∧
      exec (.output (imm 1)) { boot small [] [] with outChan := [7] } = .fault .blockedOnOutput :=
  ⟨by simp, next_of_ran (by decide), rfl⟩

/-- The store of 99 at 4 and of 0 at 4, where the next instruction lies (vector A6). -/
theorem witness_StoreIsSeenByTheNextFetch :
    (let s := core [1101, 50, 49, 4] [] 0;
      let i := Instr.add (imm 50) (imm 49) (pos 4);
      s.mem.wf = true ∧ i.destination = some (pos 4) ∧ effectiveAddr (pos 4) s = some 4 ∧ storedValue i s = some 99 ∧
        s.status = .running ∧ ∃ t, exec i s = .next t ∧ (t.status == .running && t.pc == 4) = true) ∧
      (let s := core [3, 2] [0] 0;
        let i := Instr.input (pos 2);
        s.mem.wf = true ∧ i.destination = some (pos 2) ∧ effectiveAddr (pos 2) s = some 2 ∧ storedValue i s = some 0 ∧
          s.status = .running ∧ decodeHeader 0 = .error (.invalidOpcode 0) ∧
          ∃ t, exec i s = .next t ∧ (t.status == .running && t.pc == 2) = true) :=
  ⟨⟨by decide, rfl, by decide, by decide, by decide, next_of_ran (by decide)⟩,
    ⟨by decide, rfl, by decide, by decide, by decide, by decide, next_of_ran (by decide)⟩⟩

/-- A taken jump with a Relative target, and an Add with an Immediate source. -/
theorem witness_RequestsFollowTheArbiterOrder :
    (let s := core [2105, 1, 2, 99, 104, 7, 99, 4] [] 5;
      fetchInstr s = .ok (.jumpIfTrue (imm 1) (rel 2)) ∧ load (imm 1) s = .ok 1 ∧ load (rel 2) s = .ok 4 ∧
        (Instr.jumpIfTrue (imm 1) (rel 2)).destination = none) ∧
      (let s := core [1001, 4, 1, 4, 98] [] 0;
        let i := Instr.add (pos 4) (imm 1) (pos 4);
        fetchInstr s = .ok i ∧ load (pos 4) s = .ok 98 ∧ load (imm 1) s = .ok 1 ∧ i.destination = some (pos 4) ∧
          storedValue i s = some 99 ∧ ∃ t, store (pos 4) 99 s = .ok t) :=
  ⟨by decide, rfl, rfl, rfl, rfl, rfl, _, rfl⟩

theorem witness_OnlyRequestedWritesChangeMemory :
    (core [1101, 2, 3, 4, 99] [] 0).mem.wf = true ∧
      (∃ t, step (core [1101, 2, 3, 4, 99] [] 0) = .next t ∧ (t.mem.read 4 == 5) = true) ∧
      Access.store 5 ∉ requests (core [1101, 2, 3, 4, 99] [] 0) ∧ Access.store 4 ∈ requests (core [1101, 2, 3, 4, 99] [] 0) :=
  ⟨by decide, next_of_ran (by decide), by decide, by decide⟩

/-- A core under `cancel` that is due and blocked, and a blocked and a free one without `cancel`. -/
theorem witness_CancellationStep :
    (dueCore.status = .running ∧ dueCore.cancel = true ∧ Config.cancelGrace dueCore.cancelDraw ≤ dueCore.cancelAge ∧
        dueCore.blocked) ∧
      ((core [3, 0] [] 0).status = .running ∧ (core [3, 0] [] 0).cancel = false ∧ (core [3, 0] [] 0).blocked) ∧
      ((core [99] [] 0).cancel = false ∧ ∃ t, step (core [99] [] 0) = .next t ∧ (t.status == .halted) = true) :=
  ⟨⟨rfl, rfl, Nat.le_refl _, rfl, .inl rfl⟩, ⟨rfl, rfl, rfl, .inl rfl⟩, by decide, next_of_ran (by decide)⟩

/-- A core that jumps to itself for ever, under `cancel`. -/
theorem witness_CancelledCoreEndsInFinitelyManySteps :
    (raiseCancel (core [1105, 1, 0] [] 0)).status = .running ∧ (raiseCancel (core [1105, 1, 0] [] 0)).cancel = true := by decide

theorem witness_StepRefinesTheAllowedTransitions :
    (∃ t, step (core [99] [] 0) = .next t ∧ (t.status == .halted) = true) ∧ ∃ t, Transition dueCore t :=
  ⟨next_of_ran (by decide), _, .cancelled rfl rfl⟩

theorem witness_ProgramTextRoundTrip : [(-12 : Int), 0, 7] ≠ [] := by decide

theorem witness_PipelineSeeding : 0 < [(5 : Int), 6].length ∧ 1 < [(5 : Int), 6].length ∧
    (Pipeline.build Config.spec [3, 0] 7 [5, 6]).insts ≠ [] := by decide

/-- Two instances that emit 1, and whose steps are all possible. -/
def twoCores : Pipeline := Pipeline.build Config.spec [104, 1, 99] 7 [5, 6]

theorem witness_PipelineIsolation :
    ∃ q, twoCores.step (.run 0) = some q ∧ 1 ≠ (Choice.run 0).index ∧ ∃ s, twoCores.insts[1]? = some s := by
  obtain ⟨q, hq⟩ := Option.isSome_iff_exists.mp (show (twoCores.step (.run 0)).isSome = true by decide)
  exact ⟨q, hq, by decide, Option.isSome_iff_exists.mp (by decide)⟩

/-- The same two instances after the platform has set `cancel`. -/
def twoCancelled : Pipeline := ⟨twoCores.insts.map raiseCancel⟩

/-- An instance that emits, in a ring of two and in one of one; one that faults. -/
theorem witness_PipelineStepEffect_run :
    (∃ s, view twoCores 1 = some s ∧ s.status = .running ∧
        ∃ t, runInstruction s = .next t ∧ (t.outChan == channel twoCores 0 ++ [1]) = true) ∧
      (let p := Pipeline.build Config.spec [104, 1, 99] 7 [5];
        ∃ s, view p 0 = some s ∧ s.status = .running ∧ ∃ t, runInstruction s = .next t ∧ (t.outChan == [5, 7, 1]) = true) ∧
      (let p := Pipeline.build Config.spec [0] 7 [5, 6];
        ∃ s, view p 0 = some s ∧ s.status = .running ∧ ∃ t, runInstruction s = .next t ∧ (t.status == .faulted) = true) :=
  ⟨⟨_, rfl, rfl, next_of_ran (by decide)⟩, ⟨_, rfl, rfl, next_of_ran (by decide)⟩, _, rfl, rfl, next_of_ran (by decide)⟩

/-- An instance under `cancel`, one without, one that does not exist, one that is not Running, one that waits. -/
theorem witness_PipelineStepEffect_others :
    (∃ s, twoCancelled.insts[0]? = some s ∧ s.status = .running ∧ s.cancel = true) ∧
      (∃ s, twoCores.insts[0]? = some s ∧ s.cancel = false) ∧ twoCores.insts[2]? = none ∧
      (∃ s, (⟨[setHalted (core [99] [] 0)]⟩ : Pipeline).insts[0]? = some s ∧ s.status ≠ .running) ∧
      ∃ s, view ⟨[core [3, 0] [] 0]⟩ 0 = some s ∧ runInstruction s = .fault .blockedOnInput :=
  ⟨⟨_, rfl, rfl, rfl⟩, ⟨_, rfl, rfl⟩, rfl, ⟨_, rfl, by decide⟩, _, rfl, rfl⟩

/-- Two instances that fault at once. -/
theorem witness_PipelineFaultSetsCancelEverywhere :
    (Pipeline.build Config.spec [0] 7 [5, 6]).CancelCoversFaults ∧
      ∃ q, (Pipeline.build Config.spec [0] 7 [5, 6]).step (.run 0) = some q ∧ ∃ s ∈ q.insts, s.status = .faulted := by
  refine ⟨?_, _, rfl, _, List.mem_cons_self, by decide⟩
  rintro ⟨s, hs, hf⟩
  exact absurd hf ((show ∀ s ∈ (Pipeline.build Config.spec [0] 7 [5, 6]).insts, s.status ≠ .faulted by decide) s hs)

/-- Two instructions, and an instruction beside a step to Cancelled. -/
theorem witness_PipelineStepsCommute :
    ((Choice.run 0).index ≠ (Choice.run 1).index ∧ (∃ q, twoCores.step (.run 0) = some q) ∧
        ∃ r, twoCores.step (.run 1) = some r) ∧
      ((Choice.run 0).index ≠ (Choice.cancel 1).index ∧ (∃ q, twoCancelled.step (.run 0) = some q) ∧
        ∃ r, twoCancelled.step (.cancel 1) = some r) :=
  ⟨⟨by decide, Option.isSome_iff_exists.mp (by decide), Option.isSome_iff_exists.mp (by decide)⟩,
    by decide, Option.isSome_iff_exists.mp (by decide), Option.isSome_iff_exists.mp (by decide)⟩

/-- A producer at a full channel of depth 1 whose consumer is Running. -/
theorem witness_BlockedOutputsMeetNoBlockedInput_pair :
    let p : Pipeline := ⟨[boot small [4, 1] [], boot small [3, 2] [7]]⟩;
    (∃ s, view p 0 = some s ∧ s.status = .running ∧ runInstruction s = .fault .blockedOnOutput) ∧
      ∃ u, view p (outIndex p.insts.length 0) = some u ∧ u.status = .running :=
  ⟨⟨_, rfl, rfl, rfl⟩, _, rfl, rfl⟩

/-- A ring of one instance that waits at its Input, and one that waits at its Output. -/
theorem witness_BlockedOutputsMeetNoBlockedInput_ring :
    ((⟨[boot small [3, 2] []]⟩ : Pipeline).deadlocked ∧ ∀ s ∈ [boot small [3, 2] []], s.status = .running) ∧
      ((⟨[boot small [4, 1] [7]]⟩ : Pipeline).deadlocked ∧ ∀ s ∈ [boot small [4, 1] [7]], s.status = .running) := by
  refine ⟨⟨⟨by decide, ?_⟩, by decide⟩, ⟨by decide, ?_⟩, by decide⟩ <;>
    · intro ch
      rcases ch with (_ | i) | (_ | i) <;> rfl

/-- A joined pipeline of one faulted instance, and one whose instance halted with a value in its channel. -/
theorem witness_PipelineOutcomeIsAllowed :
    (let p : Pipeline := ⟨[takeFault ⟨.invalidOpcode, 0⟩ (core [0] [] 0)]⟩;
      (∀ s ∈ p.insts, s.Inv) ∧ p.joined = true ∧ (∃ s ∈ p.insts, s.status = .faulted) ∧
        p.outcome = some (.networkFault 0 .invalidOpcode 0)) ∧
      (let p : Pipeline := ⟨[setHalted (core [99] [8, 9] 0)]⟩;
        (∀ s ∈ p.insts, s.Inv) ∧ p.joined = true ∧ (∀ s ∈ p.insts, s.status = .halted) ∧ p.outcome = some (.value 8)) := by
  refine ⟨⟨?_, by decide, ⟨_, List.mem_cons_self, rfl⟩, by decide⟩, ?_, by decide, by decide, by decide⟩ <;>
    · intro s hs
      rw [List.mem_singleton.mp hs]
      exact ⟨by decide, by decide, by decide⟩

/-- R158: the range is taken in ascending order, however it is given. -/
theorem test_permutations : permutations [7, 5] = [[5, 7], [7, 5]] := by decide

/-- The ends of a search: two equal maxima, a run without a result, a run that never ends. -/
theorem witness_SearchSelectsTheFirstMaximum :
    (∀ x ∈ permutations [2, 1], ∃ w, (fun _ => some (.value 4) : List Int → Option Outcome) x = some (.value w)) ∧
      search (fun _ => some (.value 4)) [2, 1] = some (.selected [1, 2] 4) ∧
      search (fun p => if p = [2, 1] then some .noResult else some (.value 4)) [1, 2] = some (.stopped .noResult) ∧
      search (fun p => if p = [2, 1] then none else some (.value 4)) [1, 2] = none :=
  ⟨fun _ _ => ⟨4, rfl⟩, by decide, by decide, by decide⟩

/-- A pipeline of one instance that jumps to itself for ever. -/
def loopCore : Pipeline := Pipeline.build Config.spec [1105, 1, 0] 0 [5]

theorem loopCore_never_ends (schedule : List Choice) (p : Pipeline) (h : Pipeline.runSchedule schedule loopCore = some p) :
    p.joined = false := by
  have hstep : ∀ ch q, loopCore.step ch = some q → q = loopCore := by
    intro ch q h
    rcases ch with (_ | i) | (_ | i)
    · exact (Option.some.inj (h.symm.trans (show loopCore.step (.run 0) = some loopCore by decide)))
    · cases h
    · cases h
    · cases h
  induction schedule with
  | nil => cases h; decide
  | cons ch chs ih =>
    simp only [Pipeline.runSchedule] at h
    cases hq : loopCore.step ch with
    | none => simp [hq] at h
    | some q =>
      rw [hq, hstep ch q hq] at h
      exact ih h

/-- Outcomes that are those of a program's pipelines: a value, a fault, a run that never ends. -/
theorem witness_SearchIsTiedToTheRuns :
    (RunsOf Config.spec [99] 0 [5] (fun _ => some (.value 5)) ∧
        search (fun _ => some (.value 5)) [5] = some (.selected [5] 5)) ∧
      (RunsOf Config.spec [0] 0 [5] (fun _ => some (.networkFault 0 .invalidOpcode 0)) ∧
        search (fun _ => some (.networkFault 0 .invalidOpcode 0)) [5] = some (.stopped (.networkFault 0 .invalidOpcode 0))) ∧
      (RunsOf Config.spec [1105, 1, 0] 0 [5] (fun _ => none) ∧ search (fun _ => none) [5] = none) := by
  have hp : ∀ phases ∈ permutations [5], phases = [5] := by decide
  refine ⟨⟨?_, by decide⟩, ⟨?_, by decide⟩, ?_, by decide⟩
  · intro phases h
    rw [hp phases h]
    refine ⟨fun o ho => ?_, by simp⟩
    cases ho
    exact ⟨[.run 0], ⟨[setHalted (core [99] [5, 0] 0)]⟩, by decide, .value 5 [0] (by decide) rfl⟩
  · intro phases h
    rw [hp phases h]
    refine ⟨fun o ho => ?_, by simp⟩
    cases ho
    exact ⟨[.run 0], ⟨[raiseCancel (takeFault ⟨.invalidOpcode, 0⟩ (core [0] [5, 0] 0))]⟩, by decide,
      .networkFault 0 _ _ _ (by decide) rfl rfl rfl rfl⟩
  · intro phases h
    rw [hp phases h]
    exact ⟨by simp, fun _ => loopCore_never_ends⟩

theorem witness_PermutationsAreComplete : [(9 : Int), 5, 7, 6, 8].Nodup := by decide

end Sys2Proof.Tests
end

section
/-! SUPPORT. The family of spec/10_state.md: `status` and the fault record. First what an instruction and a step do to the
memory's canonical form, to `status` and the record, to `cancel` and to `rb`, each read off `Effect`; then the obligations. -/

namespace Sys2Proof.Machine

variable {s t : State} {i : Instr}

/-! ### The fault record across one instruction -/

/-- `t` has the `status` and the fault record of `s`. -/
def SameRecord (s t : State) : Prop :=
  t.status = s.status ∧ t.faultCode = s.faultCode ∧ t.faultInfo = s.faultInfo

/-- `t` is Faulted with its fault record written (R16, R137). -/
def FaultRecorded (t : State) : Prop :=
  t.status = .faulted ∧ t.faultCode.isSome = true ∧ t.faultInfo.isSome = true

theorem faultRecorded_takeFault (e : Raised) (s : State) : FaultRecorded (takeFault e s) := ⟨rfl, rfl, rfl⟩

/-- An instruction leaves `status` and the fault record alone, halts at Halt, or takes a fault. -/
theorem Effect.record (h : Effect i s t) : SameRecord s t ∨ (i = .halt ∧ t = setHalted s) ∨ FaultRecorded t := by
  cases h with
  | stored | received | emitted | jumped | passed | rebased => exact .inl ⟨rfl, rfl, rfl⟩
  | halted hi => exact .inr (.inl ⟨hi, rfl⟩)
  | faulted | inputFaulted => exact .inr (.inr (faultRecorded_takeFault _ _))

theorem Effect.mem_wf (h : Effect i s t) (hwf : s.mem.wf = true) : t.mem.wf = true := by
  cases h with
  | stored | received => exact Memory.write_wf hwf _ _
  | emitted | jumped | passed | rebased | halted | faulted | inputFaulted => exact hwf

theorem Effect.cancel_eq (h : Effect i s t) : t.cancel = s.cancel := by cases h <;> rfl

/-- Only AdjustRelativeBase writes `rb`, and what it adds is what its operand loads in the old state (R14, R125). -/
theorem Effect.rb_eq_or_adjusted (h : Effect i s t) :
    t.rb = s.rb ∨ ∃ p v, i = .adjustRelativeBase p ∧ load p s = .ok v ∧ t.rb = s.rb + v := by
  cases h with
  | rebased p v hi hLoad => exact .inr ⟨p, v, hi, hLoad, rfl⟩
  | stored | received | emitted | jumped | passed | halted | faulted | inputFaulted => exact .inl rfl

/-! ### One step -/

theorem runInstruction_of_fetch (h : fetchInstr s = .ok i) : runInstruction s = exec i s := by
  simp [runInstruction, h]

/-- Everything a step can do: the core was Running, and it took `cancel`, the fault of its fetch, or one instruction. -/
theorem step_cases (h : step s = .next t) :
    s.status = .running ∧
      ((s.cancel = true ∧ t = takeCancel s) ∨ (∃ e, fetchInstr s = .error e ∧ t = takeFault e (pollCancel s)) ∨
        ∃ i, fetchInstr s = .ok i ∧ Effect i (pollCancel s) t) := by
  obtain ⟨hRunning, hCancel | hRun⟩ := engineStep_cases h
  · exact ⟨hRunning, .inl hCancel⟩
  · exact ⟨hRunning, .inr (by simpa using runInstruction_cases hRun)⟩

/-- A fetched Halt halts a core whose `cancel` is clear. -/
theorem step_halted_of_fetch_halt (h : step s = .next t) (hFetch : fetchInstr s = .ok .halt) (hc : s.cancel = false) :
    t = setHalted s := by
  obtain ⟨-, ⟨hCancel, -⟩ | hRun⟩ := engineStep_cases h
  · simp [hc] at hCancel
  · rw [pollCancel_of_not_cancel hc, runInstruction_of_fetch hFetch] at hRun
    exact (Host.Outcome.next.inj hRun).symm

/-! ### The invariant -/

theorem FaultRecorded.inv (h : FaultRecorded t) (hwf : t.mem.wf = true) : t.Inv := by
  obtain ⟨hStatus, hCode, hInfo⟩ := h
  exact ⟨hwf, by simp [hStatus, hCode], by rw [hCode, hInfo]⟩

/-- With the record kept, the invariant carries over as long as `status` is Faulted in both states or in neither. -/
theorem State.Inv.of_record_kept (h : s.Inv) (hwf : t.mem.wf = true) (hStatus : t.status = .faulted ↔ s.status = .faulted)
    (hCode : t.faultCode = s.faultCode) (hInfo : t.faultInfo = s.faultInfo) : t.Inv := by
  obtain ⟨-, hIff, hBoth⟩ := h
  exact ⟨hwf, by rw [hStatus, hIff, hCode], by rw [hCode, hInfo, hBoth]⟩

theorem State.Inv.pollCancel (h : s.Inv) : (Machine.pollCancel s).Inv :=
  h.of_record_kept (by simpa using h.1) (by simp) (by simp) (by simp)

theorem State.Inv.takeCancel (h : s.Inv) (hRunning : s.status = .running) : (Machine.takeCancel s).Inv :=
  h.of_record_kept h.1 (by simp [hRunning]) rfl rfl

/-- An instruction run by a Running core keeps the invariant. -/
theorem Effect.inv (he : Effect i s t) (h : s.Inv) (hRunning : s.status = .running) : t.Inv := by
  have hwf : t.mem.wf = true := he.mem_wf h.1
  rcases he.record with ⟨hStatus, hCode, hInfo⟩ | ⟨-, rfl⟩ | hFault
  · exact h.of_record_kept hwf (by rw [hStatus]) hCode hInfo
  · exact h.of_record_kept hwf (by simp [hRunning]) rfl rfl
  · exact hFault.inv hwf

/-- Settles O5: a Running core takes `cancel`, a fault, or one instruction, and each of them keeps the invariant. -/
theorem stepKeepsInvariant : Obligations.StepKeepsInvariant := by
  intro s t hInv hStep
  obtain ⟨hRunning, ⟨-, rfl⟩ | ⟨e, -, rfl⟩ | ⟨i, -, hEffect⟩⟩ := step_cases hStep
  · exact hInv.takeCancel hRunning
  · exact (faultRecorded_takeFault e _).inv hInv.pollCancel.1
  · exact hEffect.inv hInv.pollCancel (by simpa using hRunning)

/-- Settles O3. -/
theorem resetMeetsInvariant : Obligations.ResetMeetsInvariant :=
  ⟨⟨rfl, by simp [State.reset], rfl⟩, rfl, nofun, nofun⟩

/-- Settles O4: a loaded image is a canonical memory (`Memory.ofImage_wf`), and the rest is as at reset. -/
theorem loadedImageMeetsInvariant : Obligations.LoadedImageMeetsInvariant := by
  intro c image input
  exact ⟨⟨Memory.ofImage_wf image, by simp [boot, State.reset], rfl⟩, rfl, rfl, rfl⟩

/-! ### The transitions of `status`, and the writer of `rb` -/

/-- Settles O38: each clause is read off what a step can do; the last one is `step_halted_of_fetch_halt`. -/
theorem statusTransitions : Obligations.StatusTransitions := by
  intro s t hStep
  have hHalt : fetchInstr s = .ok .halt → s.cancel = false → t.status = .halted := fun hf hc => by
    rw [step_halted_of_fetch_halt hStep hf hc, setHalted_status]
  obtain ⟨hRunning, ⟨hCancel, rfl⟩ | ⟨e, -, rfl⟩ | ⟨i, hFetch, hEffect⟩⟩ := step_cases hStep
  · exact ⟨hRunning, nofun, nofun, fun _ => hCancel, rfl, fun _ => ⟨rfl, rfl⟩, hHalt⟩
  · exact ⟨hRunning, nofun, fun _ => ⟨rfl, rfl⟩, nofun, by simp, fun hNot => absurd rfl hNot, hHalt⟩
  · have hCancel : t.cancel = s.cancel := by simpa using hEffect.cancel_eq
    rcases hEffect.record with ⟨hStatus, hCode, hInfo⟩ | ⟨rfl, rfl⟩ | ⟨hStatus, hCode, hInfo⟩
    · have hStill : t.status = .running := by simpa [hRunning] using hStatus
      exact ⟨hRunning, by simp [hStill], by simp [hStill], by simp [hStill], hCancel,
        fun _ => ⟨by simpa using hCode, by simpa using hInfo⟩, hHalt⟩
    · exact ⟨hRunning, fun _ => hFetch, nofun, nofun, hCancel, fun _ => by simp, hHalt⟩
    · exact ⟨hRunning, by simp [hStatus], fun _ => ⟨hCode, hInfo⟩, by simp [hStatus], hCancel,
        fun hNot => absurd hStatus hNot, hHalt⟩

/-- Settles O39: of all a step can do, only the effect of AdjustRelativeBase changes `rb`. -/
theorem onlyAdjustRelativeBaseWritesRb : Obligations.OnlyAdjustRelativeBaseWritesRb := by
  intro s t hStep hNe
  obtain ⟨-, ⟨-, rfl⟩ | ⟨e, -, rfl⟩ | ⟨i, hFetch, hEffect⟩⟩ := step_cases hStep
  · exact absurd rfl hNe
  · exact absurd (by simp) hNe
  · rcases hEffect.rb_eq_or_adjusted with hRb | ⟨p, v, rfl, hLoad, hRb⟩
    · exact absurd (by simpa using hRb) hNe
    · exact ⟨p, v, hFetch, by rwa [load_pollCancel] at hLoad, by simpa using hRb⟩

end Sys2Proof.Machine
end

section
/-! SUPPORT. No instruction reads `status` or the fault record (spec/10_state.md R15, R16). What an instruction computes before
it settles commutes with putting any other record in the state (`RecordBlind`), and a fault taken overwrites the record. -/

namespace Sys2Proof.Machine

/-- The core with another `status` and another fault record. -/
def withRecord (st : Status) (code : Option FaultCode) (info : Option Int) (s : State) : State :=
  { s with status := st, faultCode := code, faultInfo := info }

variable {s t : State} {st : Status} {code : Option FaultCode} {info : Option Int}

theorem effectiveAddr_withRecord (p : Operand) : effectiveAddr p (withRecord st code info s) = effectiveAddr p s := rfl

theorem checkAddr_withRecord (a : Int) : checkAddr a (withRecord st code info s) = checkAddr a s := rfl

theorem load_withRecord (p : Operand) : load p (withRecord st code info s) = load p s := rfl

/-! ### Computations that do not see the record -/

/-- `f` makes of a core with another record what it makes of the core, with that other record. -/
def RecordBlind (f : State → Except Raised State) : Prop :=
  ∀ (st : Status) (code : Option FaultCode) (info : Option Int) (s : State),
    f (withRecord st code info s) = withRecord st code info <$> f s

/-- Putting back the record that is there shows that a blind computation keeps it. -/
theorem RecordBlind.sameRecord {f : State → Except Raised State} (hf : RecordBlind f) (h : f s = .ok t) : SameRecord s t := by
  have hOwn : f s = withRecord s.status s.faultCode s.faultInfo <$> f s := hf s.status s.faultCode s.faultInfo s
  rw [h] at hOwn
  have ht : t = withRecord s.status s.faultCode s.faultInfo t := Except.ok.inj hOwn
  rw [ht]
  exact ⟨rfl, rfl, rfl⟩

theorem RecordBlind.bind_blind {f g : State → Except Raised State} (hf : RecordBlind f) (hg : RecordBlind g) :
    RecordBlind fun s => f s >>= g := by
  intro st code info s
  simp only [hf st code info s, bind_map_left, map_bind, hg st code info]

/-- A value computed without the record may be used first. -/
theorem RecordBlind.bind_value {α : Type} {x : State → Except Raised α} {f : α → State → Except Raised State}
    (hx : ∀ st code info s, x (withRecord st code info s) = x s) (hf : ∀ a, RecordBlind (f a)) :
    RecordBlind fun s => x s >>= fun a => f a s := by
  intro st code info s
  simp only [hx, map_bind, hf _ st code info s]

theorem advance_blind (n : Nat) : RecordBlind fun s => .ok (advance n s) := fun _ _ _ _ => rfl

theorem memWrite_blind (a v : Int) : RecordBlind (memWrite a v) := by
  intro st code info s
  simp only [memWrite, checkAddr_withRecord]
  cases checkAddr a s <;> rfl

theorem store_blind (p : Operand) (v : Int) : RecordBlind (store p v) := by
  intro st code info s
  simp only [store, effectiveAddr_withRecord]
  cases effectiveAddr p s with
  | none => rfl
  | some a => exact memWrite_blind a v st code info s

theorem jumpTo_blind (g : Int) : RecordBlind (jumpTo g) := by
  intro st code info s
  unfold jumpTo
  split <;> rfl

/-! ### Instructions -/

/-- The run from the core with the other record, `r`, does what the run from `s` to `t` did: both leave their record, or both
take the same fault and are then the same. -/
def RecordUnread (st : Status) (code : Option FaultCode) (info : Option Int) (s t : State) (r : Result) : Prop :=
  (SameRecord s t ∧ r = .next (withRecord st code info t)) ∨ (FaultRecorded t ∧ r = .next t)

theorem settle_recordUnread {f : State → Except Raised State} (hf : RecordBlind f) (h : settle s (f s) = .next t) :
    RecordUnread st code info s t (settle (withRecord st code info s) (f (withRecord st code info s))) := by
  rw [hf st code info s]
  rcases settle_cases s (f s) with ⟨u, hu, hs⟩ | ⟨e, he, hs⟩
  · obtain rfl : u = t := Host.Outcome.next.inj (hs.symm.trans h)
    exact .inl ⟨hf.sameRecord hu, by rw [hu]; rfl⟩
  · obtain rfl : takeFault e s = t := Host.Outcome.next.inj (hs.symm.trans h)
    exact .inr ⟨faultRecorded_takeFault e s, by rw [he]; rfl⟩

theorem threeParam_recordUnread {f : Int → Int → Int} {p1 p2 p3 : Operand} (h : threeParam f p1 p2 p3 s = .next t) :
    RecordUnread st code info s t (threeParam f p1 p2 p3 (withRecord st code info s)) :=
  settle_recordUnread
    (.bind_value (fun _ _ _ _ => rfl) fun r => .bind_blind (store_blind p3 r) (advance_blind 4)) h

theorem jumpWhen_recordUnread {k : Int → Bool} {p1 p2 : Operand} (h : jumpWhen k p1 p2 s = .next t) :
    RecordUnread st code info s t (jumpWhen k p1 p2 (withRecord st code info s)) := by
  have hBranch (c : Int) :
      RecordBlind fun s => if k c then load p2 s >>= fun g => jumpTo g s else .ok (advance 3 s) := by
    cases k c with
    | true => exact .bind_value (fun _ _ _ _ => rfl) jumpTo_blind
    | false => exact advance_blind 3
  exact settle_recordUnread (.bind_value (x := load p1) (fun _ _ _ _ => rfl) hBranch) h

theorem execAdjustRelativeBase_recordUnread {p : Operand} (h : execAdjustRelativeBase p s = .next t) :
    RecordUnread st code info s t (execAdjustRelativeBase p (withRecord st code info s)) := by
  have hRebase (b : Int) : RecordBlind fun s => .ok (advance 2 (setRb b s)) := fun _ _ _ _ => rfl
  exact settle_recordUnread
    (.bind_value (x := load p) (fun _ _ _ _ => rfl) fun v =>
      .bind_value (x := fun s => result (s.rb + v) s) (fun _ _ _ _ => rfl) hRebase) h

/-- Input settles in the state that has lost the value it takes (R115). -/
theorem execInput_of_cons {p : Operand} {v : Int} {q : List Int} (hq : s.inChan = v :: q) :
    execInput p s =
      settle (setIn q s) (result v (setIn q s) >>= fun r => store p r (setIn q s) >>= fun t => .ok (advance 2 t)) := by
  simp only [execInput, inGet, hq]

theorem execInput_recordUnread {p : Operand} (h : execInput p s = .next t) :
    RecordUnread st code info s t (execInput p (withRecord st code info s)) := by
  obtain ⟨v, q, hq, -⟩ := execInput_cases h
  rw [execInput_of_cons hq] at h
  rw [execInput_of_cons (s := withRecord st code info s) hq]
  exact settle_recordUnread (s := setIn q s)
    (.bind_value (x := result v) (fun _ _ _ _ => rfl) fun r => .bind_blind (store_blind p r) (advance_blind 2)) h

theorem execOutput_recordUnread {p : Operand} (h : execOutput p s = .next t) :
    RecordUnread st code info s t (execOutput p (withRecord st code info s)) := by
  unfold execOutput at h ⊢
  rw [load_withRecord]
  cases hl : load p s with
  | error e =>
    simp only [hl, Host.Outcome.next.injEq] at h
    exact h ▸ .inr ⟨faultRecorded_takeFault e s, rfl⟩
  | ok v =>
    cases hFull : channelFull s.config s.outChan with
    | true => simp [hl, hFull] at h
    | false =>
      simp only [hl, hFull, Bool.false_eq_true, if_false, Host.Outcome.next.injEq] at h
      subst h
      exact .inl ⟨⟨rfl, rfl, rfl⟩, by simp [withRecord, hFull, advance, emit, setPc, setOut]⟩

/-- No instruction but Halt, which writes `status`, does anything else to a core with another record. -/
theorem exec_recordUnread {i : Instr} (hi : i ≠ .halt) (h : exec i s = .next t) :
    RecordUnread st code info s t (exec i (withRecord st code info s)) := by
  cases i with
  | add | multiply | lessThan | equals => exact threeParam_recordUnread h
  | jumpIfTrue | jumpIfFalse => exact jumpWhen_recordUnread h
  | input p => exact execInput_recordUnread h
  | output p => exact execOutput_recordUnread h
  | adjustRelativeBase p => exact execAdjustRelativeBase_recordUnread h
  | halt => exact absurd rfl hi

/-- A waiting instruction waits whatever `status` and the fault record are. -/
theorem exec_withRecord_of_fault {i : Instr} {r : Fault} (h : exec i s = .fault r) :
    exec i (withRecord st code info s) = .fault r := by
  rcases exec_no_step h with ⟨p, rfl, hq, rfl⟩ | ⟨p, v, rfl, hl, hFull, rfl⟩
  · simp [exec, execInput, inGet, withRecord, hq]
  · have hFull' : channelFull (withRecord st code info s).config (withRecord st code info s).outChan = true := hFull
    simp [exec, execOutput, load_withRecord, hl, hFull']

/-- Settles O41: Halt by computation, and every other instruction because what it computes is blind to the record. -/
theorem noInstructionReadsStatusOrFaultRecord : Obligations.NoInstructionReadsStatusOrFaultRecord := by
  intro i s st code info
  refine ⟨fun t h => ?_, fun r h => exec_withRecord_of_fault h⟩
  by_cases hi : i = .halt
  · subst hi
    obtain rfl : setHalted s = t := Host.Outcome.next.inj h
    exact ⟨_, rfl, rfl, .inr (.inl ⟨rfl, rfl, rfl, rfl, rfl, rfl, rfl⟩)⟩
  · rcases exec_recordUnread (st := st) (code := code) (info := info) hi h with ⟨hSame, hRun⟩ | ⟨hFault, hRun⟩
    · obtain ⟨hStatus, hCode, hInfo⟩ := hSame
      exact ⟨_, hRun, rfl, .inl ⟨hi, hStatus, hCode, hInfo, rfl, rfl, rfl⟩⟩
    · obtain ⟨hStatus, hCode, hInfo⟩ := hFault
      exact ⟨t, hRun, rfl, .inr (.inr ⟨hi, hStatus, hCode, hInfo, hStatus, rfl, rfl⟩)⟩

end Sys2Proof.Machine
end

section
/-! SUPPORT. The family of spec/20_memory.md, first part: what one access does and where it faults (R33 to R36), and the
fetch above a finite `ADDR_MAX`. -/

namespace Sys2Proof.Machine

variable {s t : State} {a v : Int} {e : Raised} {m : Nat}

/-! ### A write and the reads after it -/

/-- After a write the written address reads the value, and every other address, one that faults too, reads as before. -/
theorem memRead_of_memWrite (hwf : s.mem.wf = true) (h : memWrite a v s = .ok t) (b : Int) :
    memRead b t = if b = a then .ok v else memRead b s := by
  obtain ⟨n, hn, rfl⟩ := memWrite_ok.mp h
  have hCheck : checkAddr b (setMem (s.mem.write n v) s) = checkAddr b s := rfl
  split
  · next hba =>
    subst hba
    rw [memRead_of_ok (hCheck.trans hn), setMem_mem, Memory.read_write hwf, if_pos rfl]
  · next hba =>
    cases hb : checkAddr b s with
    | error e => simp only [memRead, hCheck, hb]
    | ok k =>
      obtain ⟨hb0, -, rfl⟩ := checkAddr_ok.mp hb
      obtain ⟨ha0, -, rfl⟩ := checkAddr_ok.mp hn
      have hne : b.toNat ≠ a.toNat := by omega
      rw [memRead_of_ok (hCheck.trans hb), memRead_of_ok hb, setMem_mem, Memory.read_write hwf, if_neg hne]

/-- Settles O8: the address check passes, and `memRead_of_memWrite` says what every address then reads. -/
theorem memoryRoundTrip : Obligations.MemoryRoundTrip := by
  intro s a v hwf h0 hIn
  have hWrite : memWrite a v s = .ok (setMem (s.mem.write a.toNat v) s) := memWrite_of_ok (checkAddr_of_nonneg h0 hIn)
  refine ⟨_, hWrite, ?_, fun b hb => ?_, rfl⟩
  · rw [memRead_of_memWrite hwf hWrite, if_pos rfl]
  · rw [memRead_of_memWrite hwf hWrite, if_neg hb]

/-! ### Accesses that fault -/

theorem memRead_of_error (h : checkAddr a s = .error e) : memRead a s = .error e := by simp [memRead, h]

theorem memWrite_of_error (h : checkAddr a s = .error e) : memWrite a v s = .error e := by simp [memWrite, h]

theorem admitsAddr_of_addrMax {c : Config} (hMax : c.addrMax = some m) (n : Nat) : admitsAddr c n = decide (n ≤ m) := by
  simp [admitsAddr, hMax]

theorem checkAddr_above_addrMax (hMax : s.config.addrMax = some m) (h : (m : Int) < a) :
    checkAddr a s = .error ⟨.capacityExceeded, a⟩ := by
  have hNot : ¬ a.toNat ≤ m := by omega
  exact checkAddr_of_exceeds (by omega) (by rw [admitsAddr_of_addrMax hMax, decide_eq_false hNot])

/-- Settles O9: both accesses answer the fault of the one address check. -/
theorem forbiddenAddressesFault : Obligations.ForbiddenAddressesFault := by
  intro s a v
  refine ⟨fun hNeg => ?_, fun m hMax hAbove => ?_⟩
  · have hCheck : checkAddr a s = .error ⟨.addressFault, a⟩ := checkAddr_of_neg hNeg
    exact ⟨memRead_of_error hCheck, memWrite_of_error hCheck⟩
  · have hCheck := checkAddr_above_addrMax hMax hAbove
    exact ⟨memRead_of_error hCheck, memWrite_of_error hCheck⟩

/-! ### The fetch above `ADDR_MAX` -/

theorem memRead_nat_above_addrMax {n : Nat} (hMax : s.config.addrMax = some m) (h : m < n) :
    memRead n s = .error ⟨.capacityExceeded, n⟩ :=
  memRead_of_error (checkAddr_above_addrMax hMax (by omega))

/-- Parameter words that begin within `ADDR_MAX`, or next to it, and end above it fault at the first address above. -/
theorem readParams_across_addrMax (hMax : s.config.addrMax = some m) (n : Nat) {a : Nat} (hFrom : a ≤ m + 1)
    (hTo : m + 1 < a + n) : readParams a n s = .error ⟨.capacityExceeded, (m + 1 : Nat)⟩ := by
  induction n generalizing a with
  | zero => omega
  | succ n ih =>
    rcases Nat.lt_or_eq_of_le hFrom with hBelow | rfl
    · have hIn : admitsAddr s.config a = true := by
        rw [admitsAddr_of_addrMax hMax, decide_eq_true (Nat.le_of_lt_succ hBelow)]
      simp only [readParams, memRead_nat hIn, ih hBelow (by omega), bind, Except.bind]
    · simp only [readParams, memRead_nat_above_addrMax hMax (Nat.lt_succ_self m), bind, Except.bind]

theorem step_eq_runInstruction (hRunning : s.status = .running) (hc : s.cancel = false) : step s = runInstruction s := by
  simp only [step, engineStep, hRunning, cancelDue, hc, Bool.false_and, Bool.false_eq_true, if_false,
    pollCancel_of_not_cancel hc]
  cases runInstruction s <;> rfl

/-- A Running core without `cancel` takes the fault of its fetch. -/
theorem step_of_fetch_error (hRunning : s.status = .running) (hc : s.cancel = false) (hf : fetchInstr s = .error e) :
    step s = .next (takeFault e s) := by
  rw [step_eq_runInstruction hRunning hc, runInstruction, hf]

/-- Settles O59: the read of the opcode word faults, or the words after it cross `ADDR_MAX` (`readParams_across_addrMax`). -/
theorem fetchAboveAddrMaxFaults : Obligations.FetchAboveAddrMaxFaults := by
  intro s m hRunning hc hMax
  refine ⟨fun hAbove => ?_, fun hIn h hHeader hAbove => ?_⟩
  · refine step_of_fetch_error hRunning hc (e := ⟨.capacityExceeded, s.pc⟩) ?_
    simp only [fetchInstr, memRead_nat_above_addrMax hMax hAbove, bind, Except.bind]
  · refine step_of_fetch_error hRunning hc (e := ⟨.capacityExceeded, (m + 1 : Nat)⟩) ?_
    have hAdmits : admitsAddr s.config s.pc = true := by rw [admitsAddr_of_addrMax hMax, decide_eq_true hIn]
    have hParams := readParams_across_addrMax hMax h.op.arity (a := s.pc + 1) (by omega) (by omega)
    simp only [fetchInstr, memRead_nat hAdmits, hHeader, hParams, bind, Except.bind]

end Sys2Proof.Machine
end

section
/-! SUPPORT. The family of spec/20_memory.md, second part: the requests of R42. What each of the three groups of requests is
where nothing faults, and its shape in every state; then the whole list, by the outcome of the fetch. -/

namespace Sys2Proof.Machine

variable {s t : State} {i : Instr} {p : Operand} {ps : List Operand} {a v d : Int} {n : Nat} {ws : List Int} {mk : Nat → Access}

/-! ### The fetch reads -/

/-- A fetch that succeeds: the opcode word is read and accepted, and its parameter words are read. -/
theorem fetchInstr_ok : fetchInstr s = .ok i ↔
    ∃ w h raws, memRead s.pc s = .ok w ∧ decodeHeader w = .ok h ∧ readParams (s.pc + 1) h.op.arity s = .ok raws ∧
      i = h.build raws := by
  unfold fetchInstr
  cases memRead s.pc s with
  | error e => simp [bind, Except.bind]
  | ok w =>
    cases hh : decodeHeader w with
    | error r => simp [bind, Except.bind, hh]
    | ok h =>
      cases hr : readParams (s.pc + 1) h.op.arity s with
      | error e => simp [bind, Except.bind, hh, hr]
      | ok raws => simp [bind, Except.bind, hh, hr, @eq_comm Instr i]

/-- Parameter words that are all read are all requested, in address order. -/
theorem fetchRequests_of_readParams {a : Nat} (h : readParams a n s = .ok ws) :
    fetchRequests a n s = (List.range' a n).map .fetch := by
  induction n generalizing a ws with
  | zero => rfl
  | succ n ih =>
    simp only [readParams, bind, Except.bind] at h
    cases hw : memRead a s with
    | error e => simp [hw] at h
    | ok w =>
      cases hs : readParams (a + 1) n s with
      | error e => simp [hw, hs] at h
      | ok ws' => simp [fetchRequests, hw, ih hs, List.range'_succ]

/-- The reads of parameter words stop at the first that faults. -/
theorem fetchRequests_upTo_fault (a n : Nat) (s : State) :
    ∃ k ≤ n, fetchRequests a n s = (List.range' a k).map .fetch := by
  induction n generalizing a with
  | zero => exact ⟨0, Nat.le_refl 0, rfl⟩
  | succ n ih =>
    cases hw : memRead a s with
    | error e => exact ⟨0, Nat.zero_le _, by simp [fetchRequests, hw]⟩
    | ok w =>
      obtain ⟨k, hk, hRest⟩ := ih (a + 1)
      exact ⟨k + 1, Nat.succ_le_succ hk, by simp [fetchRequests, hw, hRest, List.range'_succ]⟩

/-! ### The operand reads and the write -/

/-- The effective addresses of the operands in memory, in order. -/
def addressesOf (ps : List Operand) (s : State) : List Nat := ps.filterMap fun p => (effectiveAddr p s).map Int.toNat

theorem addressesOf_cons (p : Operand) (ps : List Operand) (s : State) :
    addressesOf (p :: ps) s = addressesOf [p] s ++ addressesOf ps s := by
  cases h : effectiveAddr p s <;> simp [addressesOf, h]

/-- An access that passes the address check, or an Immediate operand, makes exactly the requests of its address. -/
theorem operandRequest_of_checked (h : ∀ a, effectiveAddr p s = some a → checkAddr a s = .ok a.toNat) :
    operandRequest mk p s = (addressesOf [p] s).map mk := by
  cases ha : effectiveAddr p s with
  | none => simp [operandRequest, addressesOf, ha]
  | some a => simp [operandRequest, addressesOf, ha, served, h a ha]

theorem checkAddr_of_load (h : load p s = .ok v) (ha : effectiveAddr p s = some a) : checkAddr a s = .ok a.toNat := by
  simp only [load, ha] at h
  obtain ⟨n, hn, -⟩ := memRead_ok.mp h
  obtain ⟨-, -, rfl⟩ := checkAddr_ok.mp hn
  exact hn

theorem loadRequests_of_loads (h : ∀ p ∈ ps, ∃ v, load p s = .ok v) :
    loadRequests ps s = (addressesOf ps s).map .load := by
  induction ps with
  | nil => rfl
  | cons p ps ih =>
    obtain ⟨v, hv⟩ := h p (by simp)
    have hRest := ih fun q hq => h q (by simp [hq])
    simp only [loadRequests, hv, hRest, operandRequest_of_checked fun a => checkAddr_of_load hv, addressesOf_cons p ps,
      List.map_append]

/-- An instruction that reaches its store requests the write at its destination, where the address is served. -/
theorem storeRequests_of_stored (hDest : i.destination = some p) (hv : storedValue i s = some v)
    (hAddr : effectiveAddr p s = some d) (h0 : 0 ≤ d) (hIn : admitsAddr s.config d.toNat = true) :
    storeRequests i s = [.store d.toNat] := by
  simp [storeRequests, hDest, hv, operandRequest, hAddr, served, checkAddr_of_nonneg h0 hIn]

theorem storeRequests_of_no_fault
    (h : ∀ p, i.destination = some p → ∃ v t, storedValue i s = some v ∧ store p v s = .ok t) :
    storeRequests i s = (addressesOf i.destination.toList s).map .store := by
  cases hDest : i.destination with
  | none => simp [storeRequests, hDest, addressesOf]
  | some p =>
    obtain ⟨v, t, hv, ht⟩ := h p hDest
    obtain ⟨d, hd, h0, hIn, -⟩ := store_ok.mp ht
    simp [storeRequests_of_stored hDest hv hd h0 hIn, addressesOf, hd]

/-- An operand makes at most one request. -/
theorem operandRequest_shape (mk : Nat → Access) (p : Operand) (s : State) :
    ∃ ns : List Nat, operandRequest mk p s = ns.map mk ∧ ns.length ≤ 1 := by
  unfold operandRequest served
  split
  · exact ⟨[], rfl, by simp⟩
  · split
    · next n _ => exact ⟨[n], rfl, by simp⟩
    · exact ⟨[], rfl, by simp⟩

theorem loadRequests_shape (ps : List Operand) (s : State) :
    ∃ ns : List Nat, loadRequests ps s = ns.map .load ∧ ns.length ≤ ps.length := by
  induction ps with
  | nil => exact ⟨[], rfl, Nat.le_refl 0⟩
  | cons p ps ih =>
    unfold loadRequests
    split
    · exact ⟨[], rfl, by simp⟩
    · obtain ⟨ns, hns, hOne⟩ := operandRequest_shape .load p s
      obtain ⟨ms, hms, hRest⟩ := ih
      exact ⟨ns ++ ms, by rw [hns, hms, List.map_append], by rw [List.length_append, List.length_cons]; omega⟩

theorem loadedOperands_length (i : Instr) (s : State) : (loadedOperands i s).length ≤ 2 := by
  cases i with
  | add | multiply | input | output | lessThan | equals | adjustRelativeBase | halt => simp [loadedOperands]
  | jumpIfTrue p1 p2 | jumpIfFalse p1 p2 =>
    simp only [loadedOperands]
    split
    · split <;> simp
    · simp

theorem storeRequests_shape (i : Instr) (s : State) :
    ∃ ns : List Nat, storeRequests i s = ns.map .store ∧ ns.length ≤ 1 := by
  unfold storeRequests
  split
  · exact operandRequest_shape .store _ s
  · exact ⟨[], rfl, by simp⟩

/-! ### All requests of an instruction -/

/-- Where the instruction is fetched, its words, its operand reads and its write are requested. -/
theorem requests_of_fetch (h : fetchInstr s = .ok i) :
    requests s = (List.range' s.pc i.width).map .fetch ++ loadRequests (loadedOperands i s) s ++ storeRequests i s := by
  obtain ⟨w, hd, raws, hw, hHeader, hRaws, rfl⟩ := fetchInstr_ok.mp h
  simp only [requests, hw, hHeader, h, fetchRequests_of_readParams hRaws, Header.build_width, List.range'_succ, List.map_cons,
    List.cons_append, List.append_assoc]

theorem width_le_four (i : Instr) : i.width ≤ 4 := by cases i <;> simp [Instr.width, Instr.operands]

/-- The shape of R42's table: fetch reads from `pc` on, then operand reads, then the write, each at most so many. -/
def ArbiterShape (s : State) (rs : List Access) : Prop :=
  ∃ fetches loads stores : List Nat,
    rs = fetches.map .fetch ++ loads.map .load ++ stores.map .store ∧
      fetches = List.range' s.pc fetches.length ∧ fetches.length ≤ 4 ∧ loads.length ≤ 2 ∧ stores.length ≤ 1

theorem arbiterShape_of_fetches {k : Nat} (hk : k ≤ 4) {loads stores : List Nat} (hLoads : loads.length ≤ 2)
    (hStores : stores.length ≤ 1) :
    ArbiterShape s ((List.range' s.pc k).map .fetch ++ loads.map .load ++ stores.map .store) :=
  ⟨List.range' s.pc k, loads, stores, rfl, by simp, by simpa using hk, hLoads, hStores⟩

theorem requests_shape (s : State) : ArbiterShape s (requests s) := by
  have hFetches {k : Nat} (hk : k ≤ 4) : ArbiterShape s ((List.range' s.pc k).map .fetch) := by
    simpa using arbiterShape_of_fetches (s := s) hk (loads := []) (stores := []) (by simp) (by simp)
  cases hf : fetchInstr s with
  | ok i =>
    rw [requests_of_fetch hf]
    obtain ⟨loads, hLoads, hTwo⟩ := loadRequests_shape (loadedOperands i s) s
    obtain ⟨stores, hStores, hOne⟩ := storeRequests_shape i s
    have hWidth : i.width ≤ 4 := width_le_four i
    rw [hLoads, hStores]
    exact arbiterShape_of_fetches hWidth (hTwo.trans (loadedOperands_length i s)) hOne
  | error e =>
    cases hw : memRead s.pc s with
    | error e => simpa [requests, hw] using hFetches (Nat.zero_le 4)
    | ok w =>
      cases hh : decodeHeader w with
      | error r => simpa [requests, hw, hh] using hFetches (k := 1) (by omega)
      | ok h =>
        obtain ⟨k, hk, hRest⟩ := fetchRequests_upTo_fault (s.pc + 1) h.op.arity s
        have hArity := Opcode.arity_le h.op
        simpa [requests, hw, hh, hf, hRest, List.range'_succ] using hFetches (k := k + 1) (by omega)

/-- With its loads succeeding, JumpIfTrue loads its target unless its condition is 0 (R113). -/
theorem loadedOperands_jumpIfTrue {p1 p2 : Operand} (h : load p1 s = .ok v) :
    loadedOperands (.jumpIfTrue p1 p2) s = if load p1 s = .ok 0 then [p1] else [p1, p2] := by
  by_cases hv : v = 0 <;> simp [loadedOperands, h, truthy, hv]

theorem loadedOperands_jumpIfFalse {p1 p2 : Operand} (h : load p1 s = .ok v) :
    loadedOperands (.jumpIfFalse p1 p2) s = if load p1 s = .ok 0 then [p1, p2] else [p1] := by
  by_cases hv : v = 0 <;> simp [loadedOperands, h, falsy, hv]

/-- Where nothing faults, the requests are R42's table, each group at its addresses. -/
theorem requests_of_no_fault (hf : fetchInstr s = .ok i) (hSources : loadedOperands i s = ps)
    (hLoads : ∀ p ∈ ps, ∃ v, load p s = .ok v)
    (hStore : ∀ p, i.destination = some p → ∃ v t, storedValue i s = some v ∧ store p v s = .ok t) :
    requests s = (List.range' s.pc i.width).map .fetch ++ (addressesOf ps s).map .load ++
      (addressesOf i.destination.toList s).map .store := by
  rw [requests_of_fetch hf, hSources, loadRequests_of_loads hLoads, storeRequests_of_no_fault hStore]

/-- Settles O44: `requests_of_no_fault` with the operands each instruction loads, and `requests_shape`. -/
theorem requestsFollowTheArbiterOrder : Obligations.RequestsFollowTheArbiterOrder := by
  intro s
  refine ⟨fun i hf => ?_, requests_shape s⟩
  cases i with
  | add | multiply | input | output | lessThan | equals | adjustRelativeBase | halt => exact requests_of_no_fault hf rfl
  | jumpIfTrue p1 p2 =>
    intro sources addresses hLoads
    obtain ⟨c, hc⟩ := hLoads p1 (by simp only [sources]; split <;> simp)
    exact requests_of_no_fault hf (loadedOperands_jumpIfTrue hc) hLoads
  | jumpIfFalse p1 p2 =>
    intro sources addresses hLoads
    obtain ⟨c, hc⟩ := hLoads p1 (by simp only [sources]; split <;> simp)
    exact requests_of_no_fault hf (loadedOperands_jumpIfFalse hc) hLoads

end Sys2Proof.Machine
end

section
/-! SUPPORT. The family of spec/20_memory.md, third part: what an instruction does to memory (R33, R42), and that the next
fetch meets what it stored (R45). -/

namespace Sys2Proof.Machine

variable {s t : State} {i : Instr} {p : Operand} {v : Int}

/-- The instruction stored: its value, at the address of its destination, is all that changed in memory. -/
def Stored (i : Instr) (s t : State) : Prop :=
  ∃ p v d, i.destination = some p ∧ storedValue i s = some v ∧ effectiveAddr p s = some d ∧ 0 ≤ d ∧
    admitsAddr s.config d.toNat = true ∧ t.mem = s.mem.write d.toNat v

theorem threeParam_mem {f : Int → Int → Int} {p1 p2 p3 : Operand} (hDest : i.destination = some p3)
    (hValue : storedValue i s = (binary f p1 p2 s).toOption) (h : threeParam f p1 p2 p3 s = .next t) :
    Stored i s t ∨ (t.mem = s.mem ∧ t.status = .faulted) := by
  rcases threeParam_cases h with ⟨v, d, hv, hAddr, h0, hIn, rfl⟩ | ⟨e, -, rfl⟩
  · exact .inl ⟨p3, v, d, hDest, by rw [hValue, hv]; rfl, hAddr, h0, hIn, rfl⟩
  · exact .inr ⟨rfl, rfl⟩

theorem execInput_mem (h : execInput p s = .next t) :
    Stored (.input p) s t ∨ (t.mem = s.mem ∧ t.status = .faulted) := by
  obtain ⟨v, q, hq, ⟨d, hFits, hAddr, h0, hIn, rfl⟩ | ⟨e, -, rfl⟩⟩ := execInput_cases h
  · have hResult : result v (setIn q s) = .ok v := result_of_admits hFits
    exact .inl ⟨p, v, d, rfl, by simp [storedValue, inGet, hq, hResult, Except.toOption], hAddr, h0, hIn, rfl⟩
  · exact .inr ⟨rfl, rfl⟩

theorem Effect.mem_of_no_destination (h : Effect i s t) (hDest : i.destination = none) : t.mem = s.mem := by
  cases h with
  | stored p v d hSome => simp [hDest] at hSome
  | received p v q d hi => subst hi; cases hDest
  | emitted | jumped | passed | rebased | halted | faulted | inputFaulted => rfl

/-- All that an instruction does to memory: it stored, or it faulted, or it has no destination. -/
theorem exec_mem (h : exec i s = .next t) :
    Stored i s t ∨ (t.mem = s.mem ∧ (t.status = .faulted ∨ i.destination = none)) := by
  cases i with
  | add | multiply | lessThan | equals => exact (threeParam_mem rfl rfl h).imp_right fun ⟨hm, hs⟩ => ⟨hm, .inl hs⟩
  | input p => exact (execInput_mem h).imp_right fun ⟨hm, hs⟩ => ⟨hm, .inl hs⟩
  | output | jumpIfTrue | jumpIfFalse | adjustRelativeBase | halt =>
    exact .inr ⟨(exec_effect h).mem_of_no_destination rfl, .inr rfl⟩

/-! ### The cell that the write request names -/

theorem result_congr {u : State} (hc : u.config = s.config) (v : Int) : result v u = result v s := by
  simp only [result, hc]

theorem storedValue_pollCancel (i : Instr) (s : State) : storedValue i (pollCancel s) = storedValue i s := by
  have hBinary (f : Int → Int → Int) (p1 p2 : Operand) : binary f p1 p2 (pollCancel s) = binary f p1 p2 s := by
    simp only [binary, load_pollCancel, result_congr (pollCancel_config s)]
  cases i with
  | add | multiply | lessThan | equals => simp only [storedValue, hBinary]
  | input p =>
    cases hq : s.inChan with
    | nil => simp [storedValue, inGet, hq]
    | cons v q =>
      have hResult : result v (setIn q (pollCancel s)) = result v (setIn q s) := result_congr (by simp) v
      simp [storedValue, inGet, hq, hResult]
  | output | jumpIfTrue | jumpIfFalse | adjustRelativeBase | halt => rfl

theorem Stored.of_pollCancel (h : Stored i (pollCancel s) t) : Stored i s t := by
  simpa only [Stored, storedValue_pollCancel, effectiveAddr, pollCancel_rb, pollCancel_config, pollCancel_mem] using h

/-- A store changes the one cell for which the fetched instruction requests the write. -/
theorem Stored.read_of_not_requested (h : Stored i s t) (hf : fetchInstr s = .ok i) (hwf : s.mem.wf = true) {a : Nat}
    (ha : Access.store a ∉ requests s) : t.mem.read a = s.mem.read a := by
  obtain ⟨p, v, d, hDest, hValue, hAddr, h0, hIn, hMem⟩ := h
  have hne : a ≠ d.toNat := by
    rintro rfl
    exact ha (by simp [requests_of_fetch hf, storeRequests_of_stored hDest hValue hAddr h0 hIn])
  rw [hMem, Memory.read_write hwf, if_neg hne]

/-- Settles O45: of all a step can do, only an instruction that stores changes memory, at the cell it requests. -/
theorem onlyRequestedWritesChangeMemory : Obligations.OnlyRequestedWritesChangeMemory := by
  intro s t hwf hStep a ha
  obtain ⟨-, ⟨-, rfl⟩ | hRun⟩ := engineStep_cases hStep
  · rfl
  · cases hf : fetchInstr s with
    | error e =>
      simp only [runInstruction, fetchInstr_pollCancel, hf, Host.Outcome.next.injEq] at hRun
      simp [← hRun]
    | ok i =>
      rw [runInstruction_of_fetch ((fetchInstr_pollCancel s).trans hf)] at hRun
      rcases exec_mem hRun with hStored | ⟨hMem, -⟩
      · exact hStored.of_pollCancel.read_of_not_requested hf hwf ha
      · rw [hMem, pollCancel_mem]

/-! ### The next fetch -/

theorem Effect.config_eq (h : Effect i s t) : t.config = s.config := by cases h <;> rfl

theorem fetchInstr_of_rejected {w : Int} {r : Reject} (hw : memRead s.pc s = .ok w) (hr : decodeHeader w = .error r) :
    fetchInstr s = .error (raisedOf w r) := by
  simp only [fetchInstr, hw, hr, bind, Except.bind]

theorem fetchInstr_of_halt (hw : memRead s.pc s = .ok 99) : fetchInstr s = .ok .halt :=
  fetchInstr_ok.mpr ⟨99, Instr.halt.header, [], hw, by decide, rfl, rfl⟩

/-- Settles O43: an instruction that still runs has stored, its cell reads back, and the fetch begins with that read. -/
theorem storeIsSeenByTheNextFetch : Obligations.StoreIsSeenByTheNextFetch := by
  intro s t i p d v hwf hDest hAddr hValue _ hExec hStill
  have hRead : memRead d t = .ok v := by
    rcases exec_mem hExec with ⟨p', v', d', hDest', hValue', hAddr', h0, hIn, hMem⟩ | ⟨-, hFault | hNone⟩
    · obtain rfl : p = p' := Option.some.inj (hDest.symm.trans hDest')
      obtain rfl : v = v' := Option.some.inj (hValue.symm.trans hValue')
      obtain rfl : d = d' := Option.some.inj (hAddr.symm.trans hAddr')
      have hIn' : admitsAddr t.config d.toNat = true := (exec_effect hExec).config_eq ▸ hIn
      rw [memRead_of_ok (checkAddr_of_nonneg h0 hIn'), hMem, Memory.read_write hwf, if_pos rfl]
    · simp [hStill] at hFault
    · simp [hDest] at hNone
  exact ⟨hRead, fun hpc r hr => fetchInstr_of_rejected (hpc ▸ hRead) hr,
    fun hpc h99 => fetchInstr_of_halt (by rw [hpc, hRead, h99])⟩

end Sys2Proof.Machine
end

section
/-! SUPPORT. The family of spec/30_encoding.md. The decoder of word sequences through its header check (`decode_ok`), the
decimal digits of an opcode word (`Header.eq_number_iff`), the rejections of R60 to R64, and the table of R56 as the numbers of
the legal headers; after each of these the obligations that rest on it. -/

namespace Sys2Proof

variable {i : Instr} {h : Header} {op : Opcode} {ws raws rest : List Int} {n : Nat}

/-! ### Encoding and decoding (R50 to R55) -/

/-- A word sequence decodes when its first word is accepted and as many words follow as the opcode has parameters. -/
theorem decode_ok : decode ws = .ok (i, rest) ↔
    ∃ w h raws, ws = w :: raws ∧ decodeHeader w = .ok h ∧ h.op.arity ≤ raws.length ∧ h.build raws = i ∧
      raws.drop h.op.arity = rest := by
  cases ws with
  | nil => simp [decode]
  | cons w raws =>
    cases hh : decodeHeader w with
    | error r => simp [decode, hh]
    | ok h =>
      by_cases hShort : raws.length < h.op.arity
      · simp [decode, hh, hShort]
      · simp [decode, hh, hShort, Nat.le_of_not_lt hShort]

theorem Instr.decodeHeader_opcodeWord (i : Instr) : decodeHeader i.opcodeWord = .ok i.header :=
  decodeHeader_ok.mpr ⟨i.header_wf, rfl⟩

theorem Instr.header_arity (i : Instr) : i.header.op.arity = i.operands.length := by cases i <;> rfl

theorem Instr.build_header (i : Instr) (rest : List Int) : i.header.build (i.operands.map Operand.raw ++ rest) = i := by
  cases i <;> rfl

/-- The decoder leaves no digit of the opcode word behind: the instruction has the header it was made from. -/
theorem Header.header_build (hwf : h.wf) (raws : List Int) : (h.build raws).header = h := by
  obtain ⟨op, m1, m2, m3⟩ := h
  obtain ⟨h1, h2, h3⟩ := hwf
  cases op <;> simp_all only [Header.build, Instr.header, Opcode.arity, Nat.reduceLT, true_imp_iff]

theorem Header.map_raw_build (h : Header) (raws : List Int) :
    (h.build raws).operands.map Operand.raw = (List.range h.op.arity).map (raws.getD · 0) := by
  obtain ⟨op, m1, m2, m3⟩ := h
  cases op <;> rfl

theorem Header.map_raw_build_of_le (hLen : h.op.arity ≤ raws.length) :
    (h.build raws).operands.map Operand.raw = raws.take h.op.arity := by
  rw [Header.map_raw_build]
  refine List.ext_getElem (by simp [hLen]) fun k hk _ => ?_
  have hk' : k < raws.length := by simp at hk; omega
  simp [hk']

/-- Settles O14: the opcode word is accepted with the instruction's header, which is built back from the words behind it. -/
theorem decodeOfEncode : Obligations.DecodeOfEncode := by
  intro i rest
  refine decode_ok.mpr ⟨i.opcodeWord, i.header, i.operands.map Operand.raw ++ rest, rfl, i.decodeHeader_opcodeWord, ?_,
    i.build_header rest, ?_⟩
  · simp [i.header_arity]
  · rw [i.header_arity, ← List.length_map (f := Operand.raw), List.drop_left]

/-- Settles O15: an accepted word is the number of its header, the header of the built instruction, whose parameter words
are those the decoder consumed. -/
theorem encodeOfDecode : Obligations.EncodeOfDecode := by
  intro ws rest i hDecode
  obtain ⟨w, h, raws, rfl, hHeader, hLen, rfl, rfl⟩ := decode_ok.mp hDecode
  obtain ⟨hwf, rfl⟩ := decodeHeader_ok.mp hHeader
  simp only [encode, Instr.opcodeWord, Header.header_build hwf, Header.map_raw_build_of_le hLen, List.cons_append,
    List.take_append_drop]

/-- Settles O18, by running the decoder on the seven word sequences. -/
theorem handWrittenWordsDecode : Obligations.HandWrittenWordsDecode := by
  unfold Obligations.HandWrittenWordsDecode
  decide

/-! ### The digits of an opcode word (R51) -/

/-- A natural number is the number of a header exactly when its decimal fields are the header's. -/
theorem Header.eq_number_iff : n = h.number ↔
    n % 100 = h.op.number ∧ n / 100 % 10 = h.m1.digit ∧ n / 1000 % 10 = h.m2.digit ∧ n / 10000 % 10 = h.m3.digit ∧
      n / 100000 = 0 := by
  have h0 := h.op.number_lt
  have h1 := h.m1.digit_lt
  have h2 := h.m2.digit_lt
  have h3 := h.m3.digit_lt
  unfold Header.number
  omega

theorem Opcode.number_injective : Function.Injective Opcode.number := fun a b hab => by
  simpa [Opcode.ofNumber_number] using congrArg Opcode.ofNumber hab

theorem Mode.digit_injective : Function.Injective Mode.digit := fun a b hab => by
  simpa [Mode.ofDigit_digit] using congrArg Mode.ofDigit hab

theorem Mode.exists_digit {d : Nat} (hd : d ≤ 2) : ∃ m : Mode, m.digit = d := by
  match d, hd with
  | 0, _ => exact ⟨.position, rfl⟩
  | 1, _ => exact ⟨.immediate, rfl⟩
  | 2, _ => exact ⟨.relative, rfl⟩

theorem Mode.eq_position_iff (m : Mode) : m = .position ↔ m.digit = 0 := by cases m <;> decide

theorem Header.number_injective : Function.Injective Header.number := fun a b hab => by
  obtain ⟨hop, h1, h2, h3, -⟩ := Header.eq_number_iff.mp (rfl : a.number = a.number)
  obtain ⟨kop, k1, k2, k3, -⟩ := Header.eq_number_iff.mp hab
  cases a
  cases b
  simp only [Header.mk.injEq]
  exact ⟨Opcode.number_injective (hop.symm.trans kop), Mode.digit_injective (h1.symm.trans k1),
    Mode.digit_injective (h2.symm.trans k2), Mode.digit_injective (h3.symm.trans k3)⟩

/-! ### Rejected and accepted opcode words (R60 to R64) -/

theorem Opcode.ofNumber_eq_none (hn : n ∉ [1, 2, 3, 4, 5, 6, 7, 8, 9, 99]) : Opcode.ofNumber n = none := by
  cases ho : Opcode.ofNumber n with
  | none => rfl
  | some op =>
    obtain rfl := Opcode.number_of_ofNumber ho
    cases op <;> simp [Opcode.number] at hn

theorem decodeHeader_negative {w : Int} (hw : w < 0) : decodeHeader w = .error (.invalidOpcode w) := by
  obtain ⟨k, rfl⟩ := Int.eq_negSucc_of_lt_zero hw
  rfl

/-- Of the words that are not negative, `InvalidOpcode` rejects those whose opcode field is not in the table. -/
theorem decodeHeader_invalidOpcode :
    decodeHeader (n : Int) = .error (.invalidOpcode n) ↔ Opcode.ofNumber (n % 100) = none := by
  rw [← Int.ofNat_eq_natCast]
  cases ho : Opcode.ofNumber (n % 100) with
  | none => simp [decodeHeader, ho]
  | some op =>
    simp only [decodeHeader, ho]
    split
    · split <;> simp
    · simp

/-- R53, R62, R64: the checks on the digits above the opcode field, as the obligation `OpcodeWordChecks` writes them. -/
def ModeChecks (op : Opcode) (n : Nat) : Prop :=
  (∀ k ∈ [1, 2, 3], (k ≤ op.arity → n / 10 ^ (k + 1) % 10 ≤ 2) ∧ (op.arity < k → n / 10 ^ (k + 1) % 10 = 0)) ∧ n / 100000 = 0

theorem not_modeChecks : ¬ ModeChecks op n ↔
    (∃ k ∈ [1, 2, 3], (k ≤ op.arity ∧ 2 < n / 10 ^ (k + 1) % 10) ∨ (op.arity < k ∧ n / 10 ^ (k + 1) % 10 ≠ 0)) ∨
      n / 100000 ≠ 0 := by
  simp only [ModeChecks, not_and_or, not_forall, not_le, exists_prop]

/-- The number of a header passes its opcode's checks exactly when the header is one the decoder makes. -/
theorem Header.wf_iff_modeChecks (hn : n = h.number) : h.wf ↔ ModeChecks h.op n := by
  obtain ⟨-, h1, h2, h3, hHigh⟩ := Header.eq_number_iff.mp hn
  have l1 := h.m1.digit_lt
  have l2 := h.m2.digit_lt
  have l3 := h.m3.digit_lt
  simp only [ModeChecks, List.forall_mem_cons, List.not_mem_nil, false_imp_iff, implies_true, and_true, Nat.reduceAdd,
    Nat.reducePow, h1, h2, h3, hHigh, Header.wf, Mode.eq_position_iff]
  omega

/-- A word that passes the checks of its opcode is the number of a header with that opcode. -/
theorem ModeChecks.exists_header (hOp : n % 100 = op.number) (hChecks : ModeChecks op n) :
    ∃ h : Header, h.op = op ∧ n = h.number := by
  obtain ⟨hDigits, hHigh⟩ := hChecks
  have hLe : ∀ k ∈ [1, 2, 3], n / 10 ^ (k + 1) % 10 ≤ 2 := fun k hk => by
    obtain ⟨hHas, hLacks⟩ := hDigits k hk
    rcases Nat.lt_or_ge op.arity k with hlt | hge
    · simp [hLacks hlt]
    · exact hHas hge
  obtain ⟨m1, h1⟩ := Mode.exists_digit (hLe 1 (by simp))
  obtain ⟨m2, h2⟩ := Mode.exists_digit (hLe 2 (by simp))
  obtain ⟨m3, h3⟩ := Mode.exists_digit (hLe 3 (by simp))
  exact ⟨⟨op, m1, m2, m3⟩, rfl, Header.eq_number_iff.mpr ⟨hOp, h1.symm, h2.symm, h3.symm, hHigh⟩⟩

theorem decodeHeader_natCast : decodeHeader (n : Int) = .ok h ↔ h.wf ∧ n = h.number := by
  rw [decodeHeader_ok, Nat.cast_inj]

/-- A word whose opcode field is in the table is accepted or is `InvalidMode`, by the checks on its digits. -/
theorem decodeHeader_of_not_modeChecks (hOp : n % 100 = op.number) (hChecks : ¬ ModeChecks op n) :
    decodeHeader (n : Int) = .error (.invalidMode n) := by
  cases hd : decodeHeader (n : Int) with
  | ok h =>
    obtain ⟨hwf, hn⟩ := decodeHeader_natCast.mp hd
    obtain ⟨hField, -⟩ := Header.eq_number_iff.mp hn
    obtain rfl : op = h.op := Opcode.number_injective (hOp.symm.trans hField)
    exact absurd ((Header.wf_iff_modeChecks hn).mp hwf) hChecks
  | error r =>
    rcases decodeHeader_error hd with rfl | rfl
    · have hNone := decodeHeader_invalidOpcode.mp hd
      simp [hOp, Opcode.ofNumber_number] at hNone
    · rfl

/-- Settles O16: a word of an opcode's number is rejected or accepted as `ModeChecks` fails or holds. -/
theorem opcodeWordChecks : Obligations.OpcodeWordChecks := by
  refine ⟨fun w => decodeHeader_negative, fun n => ⟨fun hn => ?_, fun op hOp => ⟨fun hBad => ?_, fun hGood => ?_⟩⟩⟩
  · exact decodeHeader_invalidOpcode.mpr (Opcode.ofNumber_eq_none hn)
  · exact decodeHeader_of_not_modeChecks hOp (not_modeChecks.mpr hBad)
  · obtain ⟨h, rfl, hn⟩ := ModeChecks.exists_header hOp hGood
    obtain ⟨-, h1, h2, h3, -⟩ := Header.eq_number_iff.mp hn
    exact ⟨h, decodeHeader_natCast.mpr ⟨(Header.wf_iff_modeChecks hn).mpr hGood, hn⟩, rfl, h1.symm, h2.symm, h3.symm⟩

/-! ### The table of legal opcode words (R56) -/

/-- The modes a header can have at parameter `k`: any where the opcode has the parameter, `position` where it lacks it. -/
def Opcode.modesAt (op : Opcode) (k : Nat) : List Mode :=
  if k ≤ op.arity then [.position, .immediate, .relative] else [.position]

def Opcode.all : List Opcode :=
  [.add, .multiply, .input, .output, .jumpIfTrue, .jumpIfFalse, .lessThan, .equals, .adjustRelativeBase, .halt]

theorem Opcode.mem_all (op : Opcode) : op ∈ Opcode.all := by cases op <;> decide

/-- The headers the decoder makes, in the order in which R56 lists their words. -/
def legalHeaders : List Header :=
  Opcode.all.flatMap fun op =>
    (op.modesAt 3).flatMap fun m3 => (op.modesAt 2).flatMap fun m2 => (op.modesAt 1).map fun m1 => ⟨op, m1, m2, m3⟩

/-- The destination of the header's instructions, which does not depend on the parameter words, can be stored to. -/
def Header.storable (h : Header) : Bool := (h.build []).destinationOk

theorem Header.destinationOk_build (h : Header) (raws : List Int) : (h.build raws).destinationOk = h.storable := by
  obtain ⟨op, m1, m2, m3⟩ := h
  cases op <;> rfl

theorem Opcode.mem_modesAt {k : Nat} {m : Mode} : m ∈ op.modesAt k ↔ (op.arity < k → m = .position) := by
  unfold Opcode.modesAt
  split
  · next hHas => cases m <;> simp [Nat.not_lt.mpr hHas]
  · next hLacks => simp [Nat.lt_of_not_le hLacks]

theorem mem_legalHeaders : h ∈ legalHeaders ↔ h.wf := by
  obtain ⟨op, m1, m2, m3⟩ := h
  simp only [legalHeaders, List.mem_flatMap, List.mem_map, Opcode.mem_modesAt, Header.wf, Header.mk.injEq]
  constructor
  · rintro ⟨_, -, _, h3, _, h2, _, h1, rfl, rfl, rfl, rfl⟩
    exact ⟨h1, h2, h3⟩
  · rintro ⟨h1, h2, h3⟩
    exact ⟨op, op.mem_all, m3, h3, m2, h2, m1, h1, rfl, rfl, rfl, rfl⟩

theorem completeWords_eq : completeWords = (legalHeaders.filter Header.storable).map Header.number := by decide +kernel

theorem badStoreWords_eq : badStoreWords = (legalHeaders.filter (!Header.storable ·)).map Header.number := by decide +kernel

theorem mem_completeWords : n ∈ completeWords ↔ ∃ h : Header, h.wf ∧ h.storable = true ∧ n = h.number := by
  simp [completeWords_eq, mem_legalHeaders, and_assoc, @eq_comm Nat n]

theorem mem_badStoreWords : n ∈ badStoreWords ↔ ∃ h : Header, h.wf ∧ h.storable = false ∧ n = h.number := by
  simp [badStoreWords_eq, mem_legalHeaders, and_assoc, @eq_comm Nat n]

theorem tableWords_nodup : (completeWords ++ badStoreWords).Nodup := by decide +kernel

theorem mem_tableWords : n ∈ completeWords ++ badStoreWords ↔ ∃ h : Header, h.wf ∧ n = h.number := by
  rw [List.mem_append, mem_completeWords, mem_badStoreWords]
  constructor
  · rintro (⟨h, hwf, -, hn⟩ | ⟨h, hwf, -, hn⟩) <;> exact ⟨h, hwf, hn⟩
  · rintro ⟨h, hwf, hn⟩
    cases hs : h.storable with
    | true => exact .inl ⟨h, hwf, hs, hn⟩
    | false => exact .inr ⟨h, hwf, hs, hn⟩

theorem number_mem_completeWords (hwf : h.wf) : h.number ∈ completeWords ↔ h.storable = true := by
  rw [mem_completeWords]
  constructor
  · rintro ⟨k, -, hs, hn⟩
    rwa [Header.number_injective hn]
  · exact fun hs => ⟨h, hwf, hs, rfl⟩

/-- Settles O17: the table lists the numbers of the headers the decoder makes, those that can be stored to first. -/
theorem legalOpcodeWords : Obligations.LegalOpcodeWords := by
  refine ⟨rfl, rfl, tableWords_nodup, fun w => ⟨?_, ?_⟩, fun n _ h hHeader raws => ?_⟩
  · rintro ⟨h, hHeader⟩
    obtain ⟨hwf, hw⟩ := decodeHeader_ok.mp hHeader
    exact ⟨h.number, mem_tableWords.mpr ⟨h, hwf, rfl⟩, hw⟩
  · rintro ⟨n, hMem, rfl⟩
    obtain ⟨h, hwf, hn⟩ := mem_tableWords.mp hMem
    exact ⟨h, decodeHeader_natCast.mpr ⟨hwf, hn⟩⟩
  · obtain ⟨hwf, rfl⟩ := decodeHeader_natCast.mp hHeader
    rw [Header.destinationOk_build, Bool.eq_iff_iff, decide_eq_true_iff, number_mem_completeWords hwf]

end Sys2Proof

namespace Sys2Proof.Machine

/-! ### The step at an illegal opcode word (R60, R61, R137) -/

theorem decodeHeader_of_illegal_opcode {w : Int} (hw : w < 0 ∨ w % 100 ∉ [1, 2, 3, 4, 5, 6, 7, 8, 9, 99]) :
    decodeHeader w = .error (.invalidOpcode w) := by
  rcases lt_or_ge w 0 with hNeg | hPos
  · exact decodeHeader_negative hNeg
  · obtain ⟨n, rfl⟩ := Int.eq_ofNat_of_zero_le hPos
    have hField := hw.resolve_left (by omega)
    refine decodeHeader_invalidOpcode.mpr (Opcode.ofNumber_eq_none ?_)
    simp only [List.mem_cons, List.not_mem_nil, or_false] at hField ⊢
    omega

/-- A Running core without `cancel` takes the decoder's rejection of the word at `pc` as its fault. -/
theorem step_of_rejected {s : State} {r : Reject} (hRunning : s.status = .running) (hc : s.cancel = false)
    (hIn : admitsAddr s.config s.pc = true) (hr : decodeHeader (s.mem.read s.pc) = .error r) :
    step s = .next (takeFault (raisedOf (s.mem.read s.pc) r) s) :=
  step_of_fetch_error hRunning hc (fetchInstr_of_rejected (memRead_nat hIn) hr)

/-- Settles O20: either way the decoder rejects the word by itself, and the step takes that fault. -/
theorem illegalWordStepsToFault : Obligations.IllegalWordStepsToFault := by
  rintro s w hRunning hc hIn rfl
  exact ⟨fun hw => step_of_rejected hRunning hc hIn (decodeHeader_of_illegal_opcode hw),
    fun hMode => step_of_rejected hRunning hc hIn hMode⟩

end Sys2Proof.Machine
end

section
/-! SUPPORT. The family of spec/40_execution_cycle.md: when a core has a step and which one it is (R77, R82, R84), and the `pc`
that an instruction leaves (R78), read off `Effect`. -/

namespace Sys2Proof.Machine

variable {s t : State} {i : Instr}

/-! ### When a core has a step -/

/-- Settles O7: the engine looks at `status` first, and each terminal state answers itself. -/
theorem terminalStatesHaveNoStep : Obligations.TerminalStatesHaveNoStep := by
  intro s hNot
  cases hs : s.status with
  | running => exact absurd hs hNot
  | halted | faulted | cancelled => simp only [step, engineStep, hs]

/-- Under `cancel` a Running core always has a step, the one to Cancelled where its instruction has none. -/
theorem step_next_of_cancel (hRunning : s.status = .running) (hc : s.cancel = true) : ∃ t, step s = .next t := by
  cases hDue : cancelDue s with
  | true => exact ⟨takeCancel s, by simp [step, engineStep, hRunning, hDue]⟩
  | false =>
    cases hRun : runInstruction (pollCancel s) with
    | next t => exact ⟨t, by simp [step, engineStep, hRunning, hDue, hRun]⟩
    | fault r => exact ⟨takeCancel s, by simp [step, engineStep, hRunning, hDue, hRun, hc]⟩
    | refused r => exact absurd hRun (runInstruction_not_refused _ r)

theorem pollCancel_of_cancel (hc : s.cancel = true) : pollCancel s = { s with cancelAge := s.cancelAge + 1 } := by
  simp [pollCancel, hc]

/-- Settles O19: the fetch gives the decoded instruction, which the step runs unless it takes `cancel`. -/
theorem stepRunsDecodedInstruction : Obligations.StepRunsDecodedInstruction := by
  intro s i rest hRunning hDecode hIn
  have hFetch : fetchInstr s = .ok i := fetchInstr_of_decode hDecode hIn
  refine ⟨fun hc => ?_, fun hc => ?_⟩
  · rw [step_eq_runInstruction hRunning hc, runInstruction_of_fetch hFetch]
  · obtain ⟨t, hStep⟩ := step_next_of_cancel hRunning hc
    obtain ⟨-, ⟨-, rfl⟩ | hRun⟩ := engineStep_cases hStep
    · exact .inl hStep
    · rw [runInstruction_of_fetch ((fetchInstr_pollCancel s).trans hFetch), pollCancel_of_cancel hc] at hRun
      exact .inr ⟨t, hRun, hStep⟩

/-- Settles O48: `engineStep_cases` says that a step is an allowed one; where one is allowed, a core without `cancel` runs its
instruction, and one under `cancel` always has a step. -/
theorem stepRefinesTheAllowedTransitions : Obligations.StepRefinesTheAllowedTransitions := by
  refine fun s => ⟨fun t hStep => ?_, fun ⟨t, hAllowed⟩ => ?_⟩
  · obtain ⟨hRunning, ⟨hc, rfl⟩ | hRun⟩ := engineStep_cases hStep
    · exact .cancelled hRunning hc
    · exact .instruction t hRunning hRun
  · cases hAllowed with
    | cancelled hRunning hc => exact step_next_of_cancel hRunning hc
    | instruction _ hRunning hRun =>
      cases hc : s.cancel with
      | true => exact step_next_of_cancel hRunning hc
      | false => exact ⟨t, by rw [step_eq_runInstruction hRunning hc, ← hRun, pollCancel_of_not_cancel hc]⟩

/-! ### The next `pc` (R78) -/

/-- R78's table: `pc` grows by the consumption width, but for a taken jump, which loads it, and Halt, which has none. -/
def NextPc (s t : State) : Instr → Prop
  | .jumpIfTrue p1 p2 => ∃ c, load p1 s = .ok c ∧ if c ≠ 0 then load p2 s = .ok (t.pc : Int) else t.pc = s.pc + 3
  | .jumpIfFalse p1 p2 => ∃ c, load p1 s = .ok c ∧ if c = 0 then load p2 s = .ok (t.pc : Int) else t.pc = s.pc + 3
  | .halt => False
  | i => t.pc = s.pc + i.width

theorem nextPc_pollCancel : NextPc (pollCancel s) t i ↔ NextPc s t i := by
  cases i <;> simp only [NextPc, load_pollCancel, pollCancel_pc]

/-- An instruction that leaves the core Running writes `pc` as R78's table says. -/
theorem Effect.nextPc (h : Effect i s t) (hStill : t.status = .running) : NextPc s t i := by
  cases h with
  | stored p v d hDest hInput =>
    cases i with
    | add | multiply | lessThan | equals => rfl
    | input q => exact absurd rfl (hInput q)
    | output | jumpIfTrue | jumpIfFalse | adjustRelativeBase | halt => cases hDest
  | received p v q d hi | emitted p v hi | rebased p v hi =>
    subst hi
    rfl
  | jumped p1 p2 c g hi hCond hTarget h0 =>
    have hPc : load p2 s = .ok ((setPc g.toNat s).pc : Int) := by rw [hTarget, setPc_pc, Int.toNat_of_nonneg h0]
    rcases hi with ⟨rfl, hc⟩ | ⟨rfl, hc⟩ <;> exact ⟨c, hCond, by rwa [if_pos hc]⟩
  | passed p1 p2 c hi hCond =>
    rcases hi with ⟨rfl, hc⟩ | ⟨rfl, hc⟩ <;> exact ⟨c, hCond, by simp [hc]⟩
  | halted | faulted | inputFaulted => cases hStill

/-- Settles O40: of all a step can do, only an instruction leaves the core Running, with the `pc` of `Effect.nextPc`. -/
theorem nextProgramCounter : Obligations.NextProgramCounter := by
  intro s t hStep hStill
  obtain ⟨-, ⟨-, rfl⟩ | ⟨e, -, rfl⟩ | ⟨i, hFetch, hEffect⟩⟩ := step_cases hStep
  · cases hStill
  · cases hStill
  · have hNext : NextPc s t i := nextPc_pollCancel.mp (hEffect.nextPc hStill)
    exact ⟨i, hFetch, by cases i <;> exact hNext⟩

end Sys2Proof.Machine
end

section
/-! SUPPORT. The family of spec/41_operand_resolution.md: `load` and `store` in the three modes (R92 to R97). Both are first
reduced to the operand's effective address; the modes differ only in what that address is. -/

namespace Sys2Proof.Machine

variable {s : State} {p : Operand} {a d v : Int}

/-! ### The effective address -/

@[simp] theorem effectiveAddr_position (raw : Int) (s : State) : effectiveAddr ⟨raw, .position⟩ s = some raw := rfl

@[simp] theorem effectiveAddr_immediate (raw : Int) (s : State) : effectiveAddr ⟨raw, .immediate⟩ s = none := rfl

@[simp] theorem effectiveAddr_relative (raw : Int) (s : State) :
    effectiveAddr ⟨raw, .relative⟩ s = some (s.rb + raw) := rfl

theorem load_eq_memRead (hAddr : effectiveAddr p s = some a) : load p s = memRead a s := by simp [load, hAddr]

theorem load_of_no_addr (hAddr : effectiveAddr p s = none) : load p s = .ok p.raw := by simp [load, hAddr]

theorem operandRequest_of_no_addr (hAddr : effectiveAddr p s = none) (mk : Nat → Access) :
    operandRequest mk p s = [] := by simp [operandRequest, hAddr]

theorem store_eq_memWrite (hAddr : effectiveAddr p s = some d) : store p v s = memWrite d v s := by simp [store, hAddr]

theorem store_of_no_addr (hAddr : effectiveAddr p s = none) : store p v s = .error ⟨.invalidOperand, p.raw⟩ := by
  simp [store, hAddr]

/-! ### Below address 0, and from 0 on without a limit -/

theorem load_of_neg (hAddr : effectiveAddr p s = some a) (hNeg : a < 0) : load p s = .error ⟨.addressFault, a⟩ := by
  rw [load_eq_memRead hAddr, memRead_of_error (checkAddr_of_neg hNeg)]

theorem store_of_neg (hAddr : effectiveAddr p s = some d) (hNeg : d < 0) :
    store p v s = .error ⟨.addressFault, d⟩ := by
  rw [store_eq_memWrite hAddr, memWrite_of_error (checkAddr_of_neg hNeg)]

theorem admitsAddr_of_no_addrMax {c : Config} (hMax : c.addrMax = none) (n : Nat) : admitsAddr c n = true := by
  simp [admitsAddr, hMax]

theorem load_of_nonneg (hMax : s.config.addrMax = none) (hAddr : effectiveAddr p s = some a) (h0 : 0 ≤ a) :
    load p s = .ok (s.mem.read a.toNat) := by
  rw [load_eq_memRead hAddr, memRead_of_ok (checkAddr_of_nonneg h0 (admitsAddr_of_no_addrMax hMax _))]

/-- A store that passes the address check changes the cell at the effective address, and nothing else. -/
theorem store_of_nonneg (hMax : s.config.addrMax = none) (hwf : s.mem.wf = true) (hAddr : effectiveAddr p s = some d)
    (h0 : 0 ≤ d) : ∃ t, store p v s = .ok t ∧ t = { s with mem := t.mem } ∧
      ∀ b : Nat, t.mem.read b = if (b : Int) = d then v else s.mem.read b := by
  refine ⟨_, store_ok.mpr ⟨d, hAddr, h0, admitsAddr_of_no_addrMax hMax _, rfl⟩, rfl, fun b => ?_⟩
  have hCell : b = d.toNat ↔ (b : Int) = d := by omega
  simp only [setMem_mem, Memory.read_write hwf, hCell]

/-! ### The three modes -/

/-- Settles O10: the mode gives the effective address, and the sign of that decides between the cell and the fault. -/
theorem loadInTheThreeModes : Obligations.LoadInTheThreeModes := by
  intro s raw hMax
  have hPos := effectiveAddr_position raw s
  have hImm := effectiveAddr_immediate raw s
  have hRel := effectiveAddr_relative raw s
  exact ⟨hPos, load_of_nonneg hMax hPos, load_of_neg hPos,
    hImm, operandRequest_of_no_addr hImm _, load_of_no_addr hImm,
    hRel, load_of_nonneg hMax hRel, load_of_neg hRel⟩

/-- Settles O11: as for `load`, with the Immediate operand refused because it names no cell. -/
theorem storeInTheThreeModes : Obligations.StoreInTheThreeModes := by
  intro s raw v hMax hwf
  have hPos := effectiveAddr_position raw s
  have hRel := effectiveAddr_relative raw s
  exact ⟨hPos, store_of_nonneg hMax hwf hPos, store_of_neg hPos,
    store_of_no_addr (effectiveAddr_immediate raw s),
    hRel, store_of_nonneg hMax hwf hRel, store_of_neg hRel⟩

end Sys2Proof.Machine
end

section
/-! SUPPORT. The family of spec/42_arithmetic.md. The limits of the implementation (R103, R36) as an invariant of every step,
the three-parameter instructions by what their loads and their result give (R100, R101, R103), and their frame (R137). -/

namespace Sys2Proof.Machine

variable {s t : State} {i : Instr} {f : Int → Int → Int} {p1 p2 p3 : Operand} {a b d v : Int}

/-! ### The limits of the implementation -/

/-- A word and an address within the limits may be written to memory. -/
theorem State.WithinLimits.setMem_write {n : Nat} (h : s.WithinLimits) (hFits : s.config.admitsWord v = true)
    (hIn : admitsAddr s.config n = true) : (setMem (s.mem.write n v) s).WithinLimits := by
  obtain ⟨hRb, hMem, hOut⟩ := h
  refine ⟨hRb, fun c hc => ?_, hOut⟩
  rcases Memory.mem_write hc with rfl | hOld
  · exact ⟨hFits, hIn⟩
  · exact hMem c hOld

theorem State.WithinLimits.setRb (h : s.WithinLimits) (hFits : s.config.admitsWord v = true) :
    (Machine.setRb v s).WithinLimits := by
  obtain ⟨-, hMem, hOut⟩ := h
  exact ⟨hFits, hMem, hOut⟩

/-- A channel with room holds one more value, whatever the value: it is not held against `WORD_BITS` (log entry 8). -/
theorem State.WithinLimits.setOut_append (h : s.WithinLimits) (hRoom : channelFull s.config s.outChan = false) (v : Int) :
    (setOut (s.outChan ++ [v]) s).WithinLimits := by
  obtain ⟨hRb, hMem, -⟩ := h
  refine ⟨hRb, hMem, fun depth hDepth => ?_⟩
  rw [setOut_config] at hDepth
  have hLess : s.outChan.length < (depth : Nat) := by simpa [channelFull, hDepth] using hRoom
  simpa using hLess

/-- The limits speak of `rb`, memory and the output channel, and `pollCancel` counts elsewhere. -/
theorem State.WithinLimits.pollCancel (h : s.WithinLimits) : (Machine.pollCancel s).WithinLimits := by
  simpa [State.WithinLimits] using h

/-- Each value an instruction writes to memory or `rb` was admitted, and each emitted value found room. -/
theorem Effect.withinLimits (he : Effect i s t) (h : s.WithinLimits) : t.WithinLimits := by
  cases he with
  | stored p v d hDest hInput hWidth hFits hAddr h0 hIn => exact h.setMem_write hFits hIn
  | received p v q d hi hq hFits hAddr h0 hIn => exact h.setMem_write hFits hIn
  | emitted p v hi hLoad hRoom => exact h.setOut_append hRoom v
  | rebased p v hi hLoad hFits => exact h.setRb hFits
  | jumped | passed | halted | faulted | inputFaulted => exact h

/-- Settles O6: `cancel` and a fault of the fetch write none of the limited elements, and an instruction keeps the limits. -/
theorem stepKeepsWithinLimits : Obligations.StepKeepsWithinLimits := by
  intro s t hLimits hStep
  obtain ⟨-, ⟨-, rfl⟩ | ⟨e, -, rfl⟩ | ⟨i, -, hEffect⟩⟩ := step_cases hStep
  · exact hLimits
  · exact hLimits.pollCancel
  · exact hEffect.withinLimits hLimits.pollCancel

/-! ### A three-parameter instruction, by its result -/

theorem binary_of_loads (h1 : load p1 s = .ok a) (h2 : load p2 s = .ok b) : binary f p1 p2 s = result (f a b) s := by
  simp [binary, h1, h2, bind, Except.bind]

theorem threeParam_of_binary_error {e : Raised} (h : binary f p1 p2 s = .error e) :
    threeParam f p1 p2 p3 s = .next (takeFault e s) := by
  simp [threeParam, h, bind, Except.bind, settle]

/-- A result within the limits is stored, and `pc` grows by 4. -/
theorem threeParam_of_stored (hResult : binary f p1 p2 s = .ok v) (hStore : store p3 v s = .ok t) :
    threeParam f p1 p2 p3 s = .next (advance 4 t) := by
  simp [threeParam, hResult, hStore, bind, Except.bind, settle]

/-- A result the implementation cannot hold raises `CapacityExceeded`, whatever the destination (R103, log entry 8). -/
theorem threeParam_of_exceeds (h1 : load p1 s = .ok a) (h2 : load p2 s = .ok b)
    (hExceeds : s.config.admitsWord (f a b) = false) :
    threeParam f p1 p2 p3 s = .next (takeFault ⟨.capacityExceeded, f a b⟩ s) :=
  threeParam_of_binary_error ((binary_of_loads h1 h2).trans (result_of_exceeds hExceeds))

/-- With both loads, the result and the destination within the limits, the instruction completes (R100, R101). -/
theorem threeParam_of_admits (h1 : load p1 s = .ok a) (h2 : load p2 s = .ok b) (hAddr : effectiveAddr p3 s = some d)
    (h0 : 0 ≤ d) (hIn : admitsAddr s.config d.toNat = true) (hFits : s.config.admitsWord (f a b) = true) :
    threeParam f p1 p2 p3 s = .next { s with pc := s.pc + 4, mem := s.mem.write d.toNat (f a b) } :=
  threeParam_of_stored ((binary_of_loads h1 h2).trans (result_of_admits hFits)) (store_ok.mpr ⟨d, hAddr, h0, hIn, rfl⟩)

/-- AdjustRelativeBase with a new base the implementation cannot hold. -/
theorem execAdjustRelativeBase_of_exceeds (h1 : load p1 s = .ok a) (hExceeds : s.config.admitsWord (s.rb + a) = false) :
    execAdjustRelativeBase p1 s = .next (takeFault ⟨.capacityExceeded, s.rb + a⟩ s) := by
  simp [execAdjustRelativeBase, h1, result_of_exceeds hExceeds, bind, Except.bind, settle]

/-- `WORD_BITS` = n + 1 admits −2^n .. 2^n − 1 and nothing else (R5). -/
theorem admitsWord_eq_false_iff {c : Config} {n : Nat} (hBits : c.wordBits = some n.succPNat) :
    c.admitsWord v = false ↔ v < -(2 ^ n : Int) ∨ (2 ^ n : Int) - 1 < v := by
  have hTwice : (2 : Int) ^ (n + 1) = 2 * 2 ^ n := by rw [pow_succ, mul_comm]
  simp only [Config.admitsWord, hBits, Nat.succPNat_coe, Nat.succ_eq_add_one, hTwice, Bool.and_eq_false_iff,
    decide_eq_false_iff_not]
  omega

/-- Settles O12: a value outside the range is not admitted, and the instruction faults with it before it looks at the
destination. -/
theorem unholdableResultsRaiseCapacityExceeded : Obligations.UnholdableResultsRaiseCapacityExceeded := by
  intro s n p1 p2 p3 a b hBits h1 h2
  have hExceeds {v : Int} (hv : v < -(2 ^ n : Int) ∨ (2 ^ n : Int) - 1 < v) : s.config.admitsWord v = false :=
    (admitsWord_eq_false_iff hBits).mpr hv
  exact ⟨fun hSum => threeParam_of_exceeds h1 h2 (hExceeds hSum),
    fun hProduct => threeParam_of_exceeds h1 h2 (hExceeds hProduct),
    fun hBase => execAdjustRelativeBase_of_exceeds h1 (hExceeds hBase)⟩

/-- Settles O21: Add and Multiply are the three-parameter instructions of the exact sum and product. -/
theorem addAndMultiplyResult : Obligations.AddAndMultiplyResult := by
  intro s p1 p2 p3 a b d h1 h2 hAddr h0 hIn
  exact ⟨threeParam_of_admits h1 h2 hAddr h0 hIn, threeParam_of_admits h1 h2 hAddr h0 hIn⟩

/-! ### The frame -/

/-- A write at the checked address `d` leaves every cell with another address alone. -/
theorem Memory.read_write_toNat_of_ne {m : Memory} (hwf : m.wf = true) (h0 : 0 ≤ d) {n : Nat} (hne : (n : Int) ≠ d) :
    (m.write d.toNat v).read n = m.read n := by
  have hCell : n ≠ d.toNat := by omega
  rw [Memory.read_write hwf, if_neg hCell]

/-- The four instructions of three parameters differ only in their ALU function. -/
theorem exec_eq_threeParam
    (hi : i = .add p1 p2 p3 ∨ i = .multiply p1 p2 p3 ∨ i = .lessThan p1 p2 p3 ∨ i = .equals p1 p2 p3) :
    ∃ f, ∀ s, exec i s = threeParam f p1 p2 p3 s := by
  rcases hi with rfl | rfl | rfl | rfl
  · exact ⟨fun a b => a + b, fun _ => rfl⟩
  · exact ⟨fun a b => a * b, fun _ => rfl⟩
  · exact ⟨lessThanWord, fun _ => rfl⟩
  · exact ⟨equalsWord, fun _ => rfl⟩

/-- Settles O34: the instruction stored one cell at the destination and moved `pc`, or it took a fault. -/
theorem threeParameterFrame : Obligations.ThreeParameterFrame := by
  intro s t p1 p2 p3 i hi hwf hExec
  obtain ⟨f, hf⟩ := exec_eq_threeParam hi
  rcases threeParam_cases ((hf s).symm.trans hExec) with ⟨v, d, -, hAddr, h0, -, rfl⟩ | ⟨e, -, rfl⟩
  · refine ⟨rfl, rfl, rfl, rfl, rfl, rfl, rfl, .inl ⟨rfl, rfl, rfl⟩, fun d' hAddr' n hne => ?_, fun hNone => ?_⟩
    · obtain rfl : d = d' := Option.some.inj (hAddr.symm.trans hAddr')
      exact Memory.read_write_toNat_of_ne hwf h0 hne
    · simp [hNone] at hAddr
  · exact ⟨rfl, rfl, rfl, rfl, rfl, rfl, rfl, .inr ⟨rfl, rfl, rfl⟩, fun _ _ _ _ => rfl, fun _ _ => rfl⟩

end Sys2Proof.Machine
end

section
/-! SUPPORT. The family of spec/43_compare.md. The two comparisons by their cases (R105 to R107), and LessThan and Equals as
the three-parameter instructions of them. -/

namespace Sys2Proof.Machine

variable {s : State} {f : Int → Int → Int} {p1 p2 p3 : Operand} {a b d v : Int}

theorem lessThanWord_of_lt (h : a < b) : lessThanWord a b = 1 := by simp [lessThanWord, truthWord, h]

theorem lessThanWord_of_le (h : b ≤ a) : lessThanWord a b = 0 := by simp [lessThanWord, truthWord, h]

theorem equalsWord_of_eq (h : a = b) : equalsWord a b = 1 := by simp [equalsWord, truthWord, h]

theorem equalsWord_of_ne (h : a ≠ b) : equalsWord a b = 0 := by simp [equalsWord, truthWord, h]

/-- `threeParam_of_admits` for a result known by its value. -/
theorem threeParam_of_value (h1 : load p1 s = .ok a) (h2 : load p2 s = .ok b) (hAddr : effectiveAddr p3 s = some d)
    (h0 : 0 ≤ d) (hIn : admitsAddr s.config d.toNat = true) (hFits : s.config.admitsWord v = true) (hValue : f a b = v) :
    threeParam f p1 p2 p3 s = .next { s with pc := s.pc + 4, mem := s.mem.write d.toNat v } := by
  subst hValue
  exact threeParam_of_admits h1 h2 hAddr h0 hIn hFits

/-- Settles O22: each comparison gives 1 or 0, and the instruction stores that word. -/
theorem lessThanAndEqualsResult : Obligations.LessThanAndEqualsResult := by
  intro s p1 p2 p3 a b d h1 h2 hAddr h0 hIn hZero hOne
  have hStores {f : Int → Int → Int} {v : Int} := threeParam_of_value (f := f) (v := v) h1 h2 hAddr h0 hIn
  exact ⟨fun h => hStores hOne (lessThanWord_of_lt h), fun h => hStores hZero (lessThanWord_of_le h),
    fun h => hStores hOne (equalsWord_of_eq h), fun h => hStores hZero (equalsWord_of_ne h)⟩

end Sys2Proof.Machine
end

section
/-! SUPPORT. The family of spec/44_jumps.md. A jump by what its loads give (R110 to R113), then the frame of the
instructions without a destination, read off `Effect`. -/

namespace Sys2Proof.Machine

variable {s t : State} {i : Instr} {k : Int → Bool} {p1 p2 : Operand} {c g : Int} {e : Raised}

/-! ### A jump, by what its loads give -/

theorem jumpTo_of_nonneg (h0 : 0 ≤ g) : jumpTo g s = .ok (setPc g.toNat s) := if_neg (Int.not_lt.mpr h0)

theorem jumpTo_of_neg (hNeg : g < 0) : jumpTo g s = .error ⟨.addressFault, g⟩ := if_pos hNeg

theorem jumpWhen_of_condition_error (hCond : load p1 s = .error e) : jumpWhen k p1 p2 s = .next (takeFault e s) := by
  simp [jumpWhen, hCond, bind, Except.bind, settle]

/-- A jump that is not taken goes on at `pc + 3`; its second operand is not loaded (R113). -/
theorem jumpWhen_of_not_taken (hCond : load p1 s = .ok c) (hk : k c = false) :
    jumpWhen k p1 p2 s = .next (setPc (s.pc + 3) s) := by
  simp [jumpWhen, hCond, hk, bind, Except.bind, settle, advance]

/-- A taken jump is the load of its target and the write of `pc`. -/
theorem jumpWhen_of_taken (hCond : load p1 s = .ok c) (hk : k c = true) :
    jumpWhen k p1 p2 s = settle s (load p2 s >>= fun g => jumpTo g s) := by
  simp [jumpWhen, hCond, hk, bind, Except.bind]

theorem jumpWhen_of_target (hCond : load p1 s = .ok c) (hk : k c = true) (hTarget : load p2 s = .ok g) (h0 : 0 ≤ g) :
    jumpWhen k p1 p2 s = .next (setPc g.toNat s) := by
  simp [jumpWhen_of_taken hCond hk, hTarget, jumpTo_of_nonneg h0, bind, Except.bind, settle]

theorem jumpWhen_of_target_error (hCond : load p1 s = .ok c) (hk : k c = true) (hTarget : load p2 s = .error e) :
    jumpWhen k p1 p2 s = .next (takeFault e s) := by
  simp [jumpWhen_of_taken hCond hk, hTarget, bind, Except.bind, settle]

/-- A negative target raises `AddressFault` with it, and `pc` stays at the jump (R112). -/
theorem jumpWhen_of_neg_target (hCond : load p1 s = .ok c) (hk : k c = true) (hTarget : load p2 s = .ok g) (hNeg : g < 0) :
    jumpWhen k p1 p2 s = .next (takeFault ⟨.addressFault, g⟩ s) := by
  simp [jumpWhen_of_taken hCond hk, hTarget, jumpTo_of_neg hNeg, bind, Except.bind, settle]

/-! ### The two tests -/

theorem truthy_of_ne (h : c ≠ 0) : truthy c = true := decide_eq_true h

theorem truthy_of_eq (h : c = 0) : truthy c = false := decide_eq_false (not_not_intro h)

theorem falsy_of_eq (h : c = 0) : falsy c = true := decide_eq_true h

theorem falsy_of_ne (h : c ≠ 0) : falsy c = false := decide_eq_false h

/-- Settles O23: both jumps are `jumpWhen`, taken where the condition passes their test. -/
theorem jumpResult : Obligations.JumpResult := by
  intro s p1 p2 c hCond
  exact ⟨fun g hc => jumpWhen_of_target hCond (truthy_of_ne hc), fun hc => jumpWhen_of_not_taken hCond (truthy_of_eq hc),
    fun g hc => jumpWhen_of_target hCond (falsy_of_eq hc), fun hc => jumpWhen_of_not_taken hCond (falsy_of_ne hc)⟩

/-- Settles O29: the condition's load fails for both jumps alike; a bad target counts only for the one that is taken. -/
theorem jumpFaults : Obligations.JumpFaults := by
  intro s p1 p2 faulted
  refine ⟨fun e hCond => ?_, fun c e hCond hTarget => ?_, fun c g hCond hTarget hNeg => ?_⟩
  · exact ⟨jumpWhen_of_condition_error hCond, jumpWhen_of_condition_error hCond⟩
  · exact ⟨fun hc => jumpWhen_of_target_error hCond (truthy_of_ne hc) hTarget,
      fun hc => jumpWhen_of_target_error hCond (falsy_of_eq hc) hTarget⟩
  · exact ⟨fun hc => jumpWhen_of_neg_target hCond (truthy_of_ne hc) hTarget hNeg,
      fun hc => jumpWhen_of_neg_target hCond (falsy_of_eq hc) hTarget hNeg⟩

/-! ### What an instruction leaves unchanged -/

theorem eq_setHalted_of_exec_halt (h : exec .halt s = .next t) : t = setHalted s := (Host.Outcome.next.inj h).symm

theorem Effect.cancelCounters_eq (h : Effect i s t) : t.cancelAge = s.cancelAge ∧ t.cancelDraw = s.cancelDraw := by
  cases h <;> exact ⟨rfl, rfl⟩

/-- Only Input takes from the input channel, and Input has a destination. -/
theorem Effect.inChan_of_no_destination (h : Effect i s t) (hDest : i.destination = none) : t.inChan = s.inChan := by
  cases h with
  | received p v q d hi | inputFaulted e p v q hi => subst hi; cases hDest
  | stored | emitted | jumped | passed | rebased | halted | faulted => rfl

theorem Effect.outChan_of_not_output (h : Effect i s t) (hNot : ∀ p, i ≠ .output p) : t.outChan = s.outChan := by
  cases h with
  | emitted p v hi => exact absurd hi (hNot p)
  | stored | received | jumped | passed | rebased | halted | faulted | inputFaulted => rfl

theorem Effect.rb_of_not_adjustRelativeBase (h : Effect i s t) (hNot : ∀ p, i ≠ .adjustRelativeBase p) : t.rb = s.rb := by
  rcases h.rb_eq_or_adjusted with hRb | ⟨p, v, hi, -⟩
  · exact hRb
  · exact absurd hi (hNot p)

/-- An instruction other than Halt keeps `status` and the fault record, or takes a fault, which writes only these: at most
the input channel has changed before (R137, R115). -/
theorem Effect.record_or_takeFault (h : Effect i s t) (hNot : i ≠ .halt) :
    SameRecord s t ∨ ∃ e q, t = takeFault e (setIn q s) := by
  cases h with
  | stored | received | emitted | jumped | passed | rebased => exact .inl ⟨rfl, rfl, rfl⟩
  | halted hi => exact absurd hi hNot
  | faulted e => exact .inr ⟨e, s.inChan, rfl⟩
  | inputFaulted e p v q => exact .inr ⟨e, q, rfl⟩

/-- Settles O36: each element by its own lemma about `Effect`; then Halt, an instruction that completes, and a fault. -/
theorem storelessFrame : Obligations.StorelessFrame := by
  intro s t i hDest hExec
  have hEffect : Effect i s t := exec_effect hExec
  obtain ⟨hAge, hDraw⟩ := hEffect.cancelCounters_eq
  refine ⟨fun a => by rw [hEffect.mem_of_no_destination hDest], hEffect.inChan_of_no_destination hDest, hEffect.cancel_eq,
    hAge, hDraw, hEffect.config_eq, hEffect.outChan_of_not_output, hEffect.rb_of_not_adjustRelativeBase, ?_⟩
  by_cases hHalt : i = .halt
  · subst hHalt
    obtain rfl := eq_setHalted_of_exec_halt hExec
    exact .inr (.inl ⟨rfl, rfl, rfl, rfl, rfl⟩)
  · rcases hEffect.record_or_takeFault hHalt with hRecord | ⟨e, q, rfl⟩
    · exact .inl ⟨hHalt, hRecord⟩
    · exact .inr (.inr ⟨hHalt, rfl, rfl, rfl, rfl⟩)

end Sys2Proof.Machine
end

section
/-! SUPPORT. The family of spec/45_io.md, first part: Input and Output by what their channel, their load and their store
give (R115 to R119); after each the obligations that rest on it. -/

namespace Sys2Proof.Machine

variable {s t u : State} {p : Operand} {q : List Int} {d v : Int} {e : Raised}

/-! ### Input (R115, R117) -/

theorem execInput_of_empty (hq : s.inChan = []) : execInput p s = .fault .blockedOnInput := by
  simp [execInput, inGet, hq]

/-- A value outside `WORD_BITS` is taken, and faults before the destination is looked at (log entry 8). -/
theorem execInput_of_exceeds (hq : s.inChan = v :: q) (hExceeds : s.config.admitsWord v = false) :
    execInput p s = .next (takeFault ⟨.capacityExceeded, v⟩ (setIn q s)) := by
  rw [execInput_of_cons hq, result_of_exceeds (s := setIn q s) hExceeds]
  rfl

/-- A word is taken, and the rest is its store. -/
theorem execInput_of_admits (hq : s.inChan = v :: q) (hFits : s.config.admitsWord v = true) :
    execInput p s = settle (setIn q s) (store p v (setIn q s) >>= fun t => .ok (advance 2 t)) := by
  rw [execInput_of_cons hq, result_of_admits (s := setIn q s) hFits]
  rfl

theorem execInput_of_store_error (hq : s.inChan = v :: q) (hFits : s.config.admitsWord v = true)
    (hStore : store p v (setIn q s) = .error e) : execInput p s = .next (takeFault e (setIn q s)) := by
  rw [execInput_of_admits hq hFits, hStore]
  rfl

theorem execInput_of_stored (hq : s.inChan = v :: q) (hFits : s.config.admitsWord v = true)
    (hStore : store p v (setIn q s) = .ok t) : execInput p s = .next (advance 2 t) := by
  rw [execInput_of_admits hq hFits, hStore]
  rfl

/-- With a value there, Input has a step, be it a fault. -/
theorem execInput_next_of_cons (hq : s.inChan = v :: q) : ∃ t, execInput p s = .next t := by
  rw [execInput_of_cons hq]
  rcases settle_cases (setIn q s) _ with ⟨t, -, h⟩ | ⟨e, -, h⟩ <;> exact ⟨_, h⟩

/-- Whether it completes or faults, Input has taken exactly the front value. -/
theorem execInput_takes_front (h : execInput p s = .next t) : ∃ v, s.inChan = v :: t.inChan := by
  obtain ⟨v, q, hq, ⟨d, -, -, -, -, rfl⟩ | ⟨e, -, rfl⟩⟩ := execInput_cases h <;> exact ⟨v, hq⟩

theorem effectiveAddr_of_immediate (hMode : p.mode = .immediate) : effectiveAddr p s = none := by
  simp [effectiveAddr, hMode]

theorem store_of_exceeds (hAddr : effectiveAddr p s = some d) (h0 : 0 ≤ d) (hOut : admitsAddr s.config d.toNat = false) :
    store p v s = .error ⟨.capacityExceeded, d⟩ := by
  rw [store_eq_memWrite hAddr, memWrite_of_error (checkAddr_of_exceeds h0 hOut)]

/-- Settles O24: the value is a word and the store succeeds. -/
theorem inputResult : Obligations.InputResult := by
  intro s p v q d hq hFits hAddr h0 hIn
  exact execInput_of_stored hq hFits (store_ok.mpr ⟨d, hAddr, h0, hIn, rfl⟩)

/-- Settles O30: the value does not fit, or its store faults in one of three ways, in the state that has lost it. -/
theorem inputWaitsOrFaultsAfterTaking : Obligations.InputWaitsOrFaultsAfterTaking := by
  intro s p
  refine ⟨execInput_of_empty, fun v q hq => ⟨execInput_of_exceeds hq, fun hFits => ?_⟩⟩
  have hStoreFaults {e : Raised} := execInput_of_store_error (p := p) (e := e) hq hFits
  exact ⟨fun hMode => hStoreFaults (store_of_no_addr (effectiveAddr_of_immediate hMode)),
    fun d hAddr => ⟨fun hNeg => hStoreFaults (store_of_neg hAddr hNeg),
      fun h0 hOut => hStoreFaults (store_of_exceeds hAddr h0 hOut)⟩⟩

/-- Settles O35: Input stored one cell at the destination and moved `pc`, or it took a fault; either way the front value
is gone. -/
theorem inputFrame : Obligations.InputFrame := by
  intro s t p hwf hExec
  have hTaken := execInput_takes_front hExec
  obtain ⟨v, q, -, ⟨d, -, hAddr, h0, -, rfl⟩ | ⟨e, -, rfl⟩⟩ := execInput_cases hExec
  · refine ⟨rfl, hTaken, rfl, rfl, rfl, rfl, rfl, .inl ⟨rfl, rfl, rfl⟩, fun d' hAddr' n hne => ?_, fun hNone => ?_⟩
    · obtain rfl : d = d' := Option.some.inj (hAddr.symm.trans hAddr')
      exact Memory.read_write_toNat_of_ne hwf h0 hne
    · simp [hNone] at hAddr
  · exact ⟨rfl, hTaken, rfl, rfl, rfl, rfl, rfl, .inr ⟨rfl, rfl, rfl⟩, fun _ _ _ _ => rfl, fun _ _ => rfl⟩

/-! ### Output (R116, R119) -/

/-- A channel is full where it holds a finite depth or more. -/
theorem channelFull_iff {c : Config} :
    channelFull c q = true ↔ ∃ n : ℕ+, c.chanDepth = some n ∧ (n : Nat) ≤ q.length := by
  cases hDepth : c.chanDepth <;> simp [channelFull, hDepth]

theorem channelFull_eq_false_iff {c : Config} :
    channelFull c q = false ↔ c.chanDepth = none ∨ ∃ n : ℕ+, c.chanDepth = some n ∧ q.length < (n : Nat) := by
  cases hDepth : c.chanDepth <;> simp [channelFull, hDepth]

/-- A finite depth is at least 1, so a full channel holds a value (log entry 25). -/
theorem ne_nil_of_channelFull {c : Config} (h : channelFull c q = true) : q ≠ [] := by
  obtain ⟨n, -, hLen⟩ := channelFull_iff.mp h
  exact List.ne_nil_of_length_pos (Nat.lt_of_lt_of_le n.pos hLen)

theorem execOutput_of_load_error (hLoad : load p s = .error e) : execOutput p s = .next (takeFault e s) := by
  simp [execOutput, hLoad]

theorem execOutput_of_room (hLoad : load p s = .ok v) (hRoom : channelFull s.config s.outChan = false) :
    execOutput p s = .next (advance 2 (emit v s)) := by
  simp [execOutput, hLoad, hRoom]

theorem execOutput_of_full (hLoad : load p s = .ok v) (hFull : channelFull s.config s.outChan = true) :
    execOutput p s = .fault .blockedOnOutput := by
  simp [execOutput, hLoad, hFull]

theorem execAdjustRelativeBase_of_load_error (hLoad : load p s = .error e) :
    execAdjustRelativeBase p s = .next (takeFault e s) := by
  simp [execAdjustRelativeBase, hLoad, bind, Except.bind, settle]

/-- Settles O25: an unbounded channel, or one with room, is not full. -/
theorem outputResult : Obligations.OutputResult := by
  intro s p v hLoad hRoom
  exact execOutput_of_room hLoad (channelFull_eq_false_iff.mpr hRoom)

/-- Settles O31: the load comes first; where it succeeds, a full channel leaves Output without a step. -/
theorem outputAndAdjustFaults : Obligations.OutputAndAdjustFaults := by
  intro s p
  exact ⟨fun e hLoad => ⟨execOutput_of_load_error hLoad, execAdjustRelativeBase_of_load_error hLoad⟩,
    fun v n hLoad hDepth hLen => execOutput_of_full hLoad (channelFull_iff.mpr ⟨n, hDepth, hLen⟩)⟩

/-! ### No lost wake-up (R148) -/

theorem inChan_of_exec_blockedOnInput {i : Instr} (h : exec i s = .fault .blockedOnInput) : s.inChan = [] := by
  rcases exec_no_step h with ⟨p, -, hq, -⟩ | ⟨p, v, -, -, -, hr⟩
  · exact hq
  · cases hr

/-- Only an Output waits at an Output, and it has loaded its value by then (log entry 9). -/
theorem full_of_exec_blockedOnOutput {i : Instr} (h : exec i s = .fault .blockedOnOutput) :
    ∃ p v, i = .output p ∧ load p s = .ok v ∧ channelFull s.config s.outChan = true := by
  rcases exec_no_step h with ⟨p, -, -, hr⟩ | ⟨p, v, hi, hLoad, hFull, -⟩
  · cases hr
  · exact ⟨p, v, hi, hLoad, hFull⟩

theorem collect_eq_some : collect s = some (v, u) ↔ ∃ q, s.outChan = v :: q ∧ u = setOut q s := by
  cases hq : s.outChan with
  | nil => simp [collect, hq]
  | cons x q => simp [collect, hq, and_assoc, @eq_comm State u]

/-- Settles O32: the supplied value is the one at the front; the collected one leaves room for one more. -/
theorem waitingInstructionsWakeUp : Obligations.WaitingInstructionsWakeUp := by
  intro s p
  refine ⟨fun v hWaits => ?_, fun n v u hDepth hLen hWaits hCollect => ?_⟩
  · have hSupplied : (supply v s).inChan = [v] := by simp [supply, inChan_of_exec_blockedOnInput hWaits]
    obtain ⟨t, hExec⟩ := execInput_next_of_cons (p := p) hSupplied
    obtain ⟨x, hFront⟩ := execInput_takes_front hExec
    exact ⟨t, hExec, (List.cons.inj (hSupplied.symm.trans hFront)).2.symm⟩
  · obtain ⟨p', x, hp, hLoad, -⟩ := full_of_exec_blockedOnOutput hWaits
    obtain rfl : p = p' := Instr.output.inj hp
    obtain ⟨q, hq, rfl⟩ := collect_eq_some.mp hCollect
    have hRoom : channelFull (setOut q s).config (setOut q s).outChan = false :=
      channelFull_eq_false_iff.mpr (.inr ⟨n, hDepth, by simpa [hq] using hLen⟩)
    refine ⟨x, hLoad, (execOutput_of_room (s := setOut q s) hLoad hRoom).trans ?_⟩
    rw [hq]
    rfl

end Sys2Proof.Machine
end

section
/-! SUPPORT. The family of spec/45_io.md, second part: what the instructions do not read. A change of the state that the shared
operations do not see (`Unread`) may be made after an instruction that uses only these instead of before it. Two such changes
are another input channel (R121), which Output does not read either, and another `CHAN_DEPTH` (R119), which Input does not read
either. -/

namespace Sys2Proof.Machine

/-- `g` changes nothing that the operations on `pc`, `rb`, memory, the output channel, `status` and the fault record read or
write. -/
structure Unread (g : State → State) : Prop where
  pc (s : State) : (g s).pc = s.pc
  rb (s : State) : (g s).rb = s.rb
  mem (s : State) : (g s).mem = s.mem
  outChan (s : State) : (g s).outChan = s.outChan
  result (v : Int) (s : State) : result v (g s) = result v s
  checkAddr (a : Int) (s : State) : checkAddr a (g s) = checkAddr a s
  setPc (n : Nat) (s : State) : setPc n (g s) = g (setPc n s)
  setRb (v : Int) (s : State) : setRb v (g s) = g (setRb v s)
  setMem (m : Memory) (s : State) : setMem m (g s) = g (setMem m s)
  setOut (q : List Int) (s : State) : setOut q (g s) = g (setOut q s)
  setHalted (s : State) : setHalted (g s) = g (setHalted s)
  takeFault (e : Raised) (s : State) : takeFault e (g s) = g (takeFault e s)

/-- The result with `g` done to its next state; where there is no step, there is none. -/
def onNext (g : State → State) : Result → Result
  | .next t => .next (g t)
  | .fault r => .fault r
  | .refused r => .refused r

theorem onNext_eq_next {g : State → State} {r : Result} {u : State} : onNext g r = .next u ↔ ∃ t, r = .next t ∧ g t = u := by
  cases r <;> simp [onNext]

variable {g : State → State} {s t : State} {i : Instr} {p p1 p2 p3 : Operand} {q : List Int} {depth : Option ℕ+}

/-! ### The shared operations -/

theorem Unread.effectiveAddr (hg : Unread g) (p : Operand) (s : State) : effectiveAddr p (g s) = effectiveAddr p s := by
  simp only [Machine.effectiveAddr, hg.rb]

theorem Unread.load (hg : Unread g) (p : Operand) (s : State) : load p (g s) = load p s := by
  simp only [Machine.load, hg.effectiveAddr, memRead, hg.checkAddr, hg.mem]

theorem Unread.store (hg : Unread g) (p : Operand) (v : Int) (s : State) : store p v (g s) = g <$> store p v s := by
  simp only [Machine.store, hg.effectiveAddr, memWrite, hg.checkAddr, hg.mem, hg.setMem]
  cases Machine.effectiveAddr p s with
  | none => rfl
  | some a => cases hCheck : Machine.checkAddr a s <;> simp only [hCheck] <;> rfl

theorem Unread.advance (hg : Unread g) (n : Nat) (s : State) : advance n (g s) = g (advance n s) := by
  simp only [Machine.advance, hg.pc, hg.setPc]

theorem Unread.emit (hg : Unread g) (v : Int) (s : State) : emit v (g s) = g (emit v s) := by
  simp only [Machine.emit, hg.outChan, hg.setOut]

theorem Unread.jumpTo (hg : Unread g) (a : Int) (s : State) : jumpTo a (g s) = g <$> jumpTo a s := by
  simp only [Machine.jumpTo, hg.setPc]
  split <;> rfl

theorem Unread.binary (hg : Unread g) (f : Int → Int → Int) (p1 p2 : Operand) (s : State) :
    binary f p1 p2 (g s) = binary f p1 p2 s := by
  simp only [Machine.binary, hg.load, hg.result]

theorem Unread.settle (hg : Unread g) (s : State) (r : Except Raised State) :
    settle (g s) (g <$> r) = onNext g (settle s r) := by
  cases r with
  | ok t => rfl
  | error e => exact congrArg Host.Outcome.next (hg.takeFault e s)

/-! ### The instructions -/

theorem Unread.threeParam (hg : Unread g) (f : Int → Int → Int) :
    threeParam f p1 p2 p3 (g s) = onNext g (threeParam f p1 p2 p3 s) := by
  simp only [Machine.threeParam, ← hg.settle, hg.binary, hg.store, map_bind, bind_map_left, hg.advance]
  rfl

theorem Unread.jumpWhen (hg : Unread g) (k : Int → Bool) : jumpWhen k p1 p2 (g s) = onNext g (jumpWhen k p1 p2 s) := by
  simp only [Machine.jumpWhen, ← hg.settle, hg.load, map_bind]
  congr 2
  funext c
  cases k c with
  | true => simp [hg.jumpTo]
  | false => simp [hg.advance]

theorem Unread.execAdjustRelativeBase (hg : Unread g) :
    execAdjustRelativeBase p (g s) = onNext g (execAdjustRelativeBase p s) := by
  simp only [Machine.execAdjustRelativeBase, ← hg.settle, hg.load, hg.rb, hg.result, map_bind, hg.setRb, hg.advance]
  rfl

/-- Output also reads whether its channel is full, once its load has succeeded. -/
theorem Unread.execOutput (hg : Unread g)
    (hFull : ∀ v, Machine.load p s = .ok v → channelFull (g s).config s.outChan = channelFull s.config s.outChan) :
    execOutput p (g s) = onNext g (execOutput p s) := by
  cases hLoad : Machine.load p s with
  | error e => simp [Machine.execOutput, hg.load, hLoad, hg.takeFault, onNext]
  | ok v =>
    cases hRoom : channelFull s.config s.outChan <;>
      simp [Machine.execOutput, hg.load, hg.outChan, hLoad, hFull v hLoad, hRoom, hg.emit, hg.advance, onNext]

/-- Of the ten instructions, only Input and Output use more than the shared operations. -/
theorem Unread.exec (hg : Unread g) (hIn : ∀ p, i ≠ .input p) (hOut : ∀ p, i ≠ .output p) :
    exec i (g s) = onNext g (exec i s) := by
  cases i with
  | add | multiply | lessThan | equals => exact hg.threeParam _
  | jumpIfTrue | jumpIfFalse => exact hg.jumpWhen _
  | adjustRelativeBase => exact hg.execAdjustRelativeBase
  | halt => exact congrArg Host.Outcome.next (hg.setHalted s)
  | input p => exact absurd rfl (hIn p)
  | output p => exact absurd rfl (hOut p)

/-! ### Another input channel -/

theorem setIn_unread (q : List Int) : Unread (setIn q) := by constructor <;> intros <;> rfl

theorem exec_setIn (hIn : ∀ p, i ≠ .input p) : exec i (setIn q s) = onNext (setIn q) (exec i s) := by
  by_cases hOut : ∃ p, i = .output p
  · obtain ⟨p, rfl⟩ := hOut
    exact (setIn_unread q).execOutput fun _ _ => rfl
  · exact (setIn_unread q).exec hIn (not_exists.mp hOut)

/-- Only Input takes from the input channel (R118). -/
theorem Effect.inChan_of_not_input (h : Effect i s t) (hNot : ∀ p, i ≠ .input p) : t.inChan = s.inChan := by
  cases h with
  | received p v q d hi | inputFaulted e p v q hi => exact absurd hi (hNot p)
  | stored | emitted | jumped | passed | rebased | halted | faulted => rfl

/-- Settles O42: an instruction other than Input does after a change of the input channel what it does before it. -/
theorem onlyInputTouchesTheInputChannel : Obligations.OnlyInputTouchesTheInputChannel := by
  intro i s q hNot
  have hChanged : exec i (setIn q s) = onNext (setIn q) (exec i s) := exec_setIn hNot
  exact ⟨fun t hExec => ⟨(exec_effect hExec).inChan_of_not_input hNot, hChanged.trans (congrArg (onNext (setIn q)) hExec)⟩,
    fun r hWaits => hChanged.trans (congrArg (onNext (setIn q)) hWaits)⟩

/-! ### Another `CHAN_DEPTH` -/

/-- The core built with another `CHAN_DEPTH`. -/
def withDepth (depth : Option ℕ+) (s : State) : State := { s with config := { s.config with chanDepth := depth } }

theorem withDepth_unread (depth : Option ℕ+) : Unread (withDepth depth) := by constructor <;> intros <;> rfl

theorem execInput_withDepth : execInput p (withDepth depth s) = onNext (withDepth depth) (execInput p s) := by
  cases hq : s.inChan with
  | nil => rw [execInput_of_empty hq, execInput_of_empty (s := withDepth depth s) hq]; rfl
  | cons v q =>
    have hg := withDepth_unread depth
    have hTaken : setIn q (withDepth depth s) = withDepth depth (setIn q s) := rfl
    simp only [execInput_of_cons hq, execInput_of_cons (s := withDepth depth s) hq, hTaken, ← hg.settle, hg.result, hg.store,
      map_bind, bind_map_left, hg.advance]
    rfl

theorem exec_withDepth (hOut : ∀ p, i ≠ .output p) : exec i (withDepth depth s) = onNext (withDepth depth) (exec i s) := by
  by_cases hIn : ∃ p, i = .input p
  · obtain ⟨p, rfl⟩ := hIn
    exact execInput_withDepth
  · exact (withDepth_unread depth).exec (not_exists.mp hIn) hOut

/-- Where Output is not kept waiting by a full channel, the depth makes no difference to it. -/
theorem execOutput_withoutDepth (h : execOutput p s ≠ .fault .blockedOnOutput) :
    execOutput p (withDepth none s) = onNext (withDepth none) (execOutput p s) := by
  refine (withDepth_unread none).execOutput fun v hLoad => ?_
  have hRoom : channelFull s.config s.outChan = false := Bool.eq_false_iff.mpr fun hFull => h (execOutput_of_full hLoad hFull)
  exact hRoom.symm

/-- With unbounded channels an instruction does the same, unless it waits at a full one. -/
theorem exec_withoutDepth (h : exec i s ≠ .fault .blockedOnOutput) :
    exec i (withDepth none s) = onNext (withDepth none) (exec i s) := by
  by_cases hOut : ∃ p, i = .output p
  · obtain ⟨p, rfl⟩ := hOut
    exact execOutput_withoutDepth h
  · exact exec_withDepth (not_exists.mp hOut)

/-- The setting of a core is its only difference from the one with another depth. -/
theorem withConfig_withDepth {c : Config} (hConfig : t.config = c) : { withDepth depth t with config := c } = t := by
  subst hConfig
  rfl

/-- Settles O33: by `exec_withoutDepth`, with the one exception where the instruction waits at a full channel. -/
theorem finiteDepthOnlyTakesStepsAway : Obligations.FiniteDepthOnlyTakesStepsAway := by
  intro i s unbounded
  refine ⟨fun t hExec => ?_, fun u hExec => ?_⟩
  · exact (exec_withoutDepth (by simp [hExec])).trans (congrArg (onNext (withDepth none)) hExec)
  · by_cases hWaits : exec i s = .fault .blockedOnOutput
    · obtain ⟨p, v, hi, -, hFull⟩ := full_of_exec_blockedOnOutput hWaits
      obtain ⟨n, hDepth, hLen⟩ := channelFull_iff.mp hFull
      exact .inr ⟨p, n, hi, hDepth, hLen, hWaits⟩
    · obtain ⟨t, hNext, rfl⟩ := onNext_eq_next.mp ((exec_withoutDepth hWaits).symm.trans hExec)
      have hConfig : t.config = s.config := (exec_effect hNext).config_eq
      exact .inl (by rw [hNext, withConfig_withDepth hConfig])

end Sys2Proof.Machine
end

section
/-! SUPPORT. The family of spec/45_io.md, third part: waiting cores of a pipeline (R119, R157). An Output waits at a channel
that holds a value, so its consumer does not wait at an Input; and what passes from each core to its consumer passes round
the whole ring. -/

namespace Sys2Proof.Machine

variable {pl : Pipeline} {i j n : Nat} {s u : State}

/-! ### What a waiting core says of its channel -/

/-- A core that waits has fetched an instruction that has no step. -/
theorem exec_of_runInstruction_fault {r : Fault} (h : runInstruction s = .fault r) : ∃ i, exec i s = .fault r := by
  cases hf : fetchInstr s with
  | error e => simp [runInstruction, hf] at h
  | ok i => exact ⟨i, runInstruction_of_fetch hf ▸ h⟩

theorem inChan_of_blockedOnInput (h : runInstruction s = .fault .blockedOnInput) : s.inChan = [] := by
  obtain ⟨i, hExec⟩ := exec_of_runInstruction_fault h
  exact inChan_of_exec_blockedOnInput hExec

theorem outChan_ne_nil_of_blockedOnOutput (h : runInstruction s = .fault .blockedOnOutput) : s.outChan ≠ [] := by
  obtain ⟨i, hExec⟩ := exec_of_runInstruction_fault h
  obtain ⟨p, v, -, -, hFull⟩ := full_of_exec_blockedOnOutput hExec
  exact ne_nil_of_channelFull hFull

theorem view_inChan (h : view pl i = some s) : s.inChan = channel pl i := by
  obtain ⟨u, hu, rfl⟩ := view_some h
  simp [channel, hu]

theorem view_outChan (h : view pl i = some s) : s.outChan = channel pl (outIndex pl.insts.length i) := by
  obtain ⟨u, -, rfl⟩ := view_some h
  rfl

theorem view_lt (h : view pl i = some s) : i < pl.insts.length := by
  obtain ⟨u, hu, -⟩ := view_some h
  exact (List.getElem?_eq_some_iff.mp hu).1

theorem exists_view (h : i < pl.insts.length) : ∃ s, view pl i = some s := by
  simp [view, List.getElem?_eq_getElem h]

theorem view_running (h : view pl i = some s) (hAll : ∀ s ∈ pl.insts, s.status = .running) : s.status = .running := by
  obtain ⟨u, hu, rfl⟩ := view_some h
  exact hAll u (List.mem_of_getElem? hu)

/-- The consumer of a channel at which its producer waits does not wait at an Input. -/
theorem consumer_waits_at_output (hs : view pl i = some s) (hWaits : runInstruction s = .fault .blockedOnOutput)
    (hu : view pl (outIndex pl.insts.length i) = some u) (hRunning : u.status = .running)
    (hNone : pl.step (.run (outIndex pl.insts.length i)) = none) : runInstruction u = .fault .blockedOnOutput := by
  have hHolds : u.inChan ≠ [] := by
    rw [view_inChan hu, ← view_outChan hs]
    exact outChan_ne_nil_of_blockedOnOutput hWaits
  rcases waits_of_no_step hu hRunning hNone with hInput | hOutput
  · exact absurd (inChan_of_blockedOnInput hInput) hHolds
  · exact hOutput

/-! ### Round the ring -/

/-- What holds of one place in the ring, and of the consumer of each place of which it holds, holds of every place. -/
theorem forall_of_outIndex {P : Nat → Prop} (hNext : ∀ k < n, P k → P (outIndex n k)) (hi : i < n) (hP : P i) :
    ∀ j < n, P j := by
  have hAfter (k : Nat) : P ((i + k) % n) := by
    induction k with
    | zero => rwa [Nat.add_zero, Nat.mod_eq_of_lt hi]
    | succ k ih =>
      have hConsumer := hNext _ (Nat.mod_lt _ (by omega)) ih
      rwa [outIndex, Nat.mod_add_mod, Nat.add_assoc] at hConsumer
  intro j hj
  have hRound : (i + (j + (n - i))) % n = j := by
    rw [show i + (j + (n - i)) = j + n by omega, Nat.add_mod_right, Nat.mod_eq_of_lt hj]
  exact hRound ▸ hAfter (j + (n - i))

/-- Core `k` waits at an Output, if there is a core `k`. -/
def WaitsAtOutput (pl : Pipeline) (k : Nat) : Prop := ∀ s, view pl k = some s → runInstruction s = .fault .blockedOnOutput

/-- In a deadlock of Running cores, waiting at an Output passes from each core to its consumer. -/
theorem waitsAtOutput_outIndex (hStuck : ∀ ch, pl.step ch = none) (hAll : ∀ s ∈ pl.insts, s.status = .running)
    (hi : i < pl.insts.length) (h : WaitsAtOutput pl i) : WaitsAtOutput pl (outIndex pl.insts.length i) := by
  intro u hu
  obtain ⟨s, hs⟩ := exists_view hi
  exact consumer_waits_at_output hs (h s hs) hu (view_running hu hAll) (hStuck _)

/-- Settles O54: the consumer by `consumer_waits_at_output`; and in the deadlock, one core that waits at an Output makes all
round the ring do so. -/
theorem blockedOutputsMeetNoBlockedInput : Obligations.BlockedOutputsMeetNoBlockedInput := by
  refine ⟨fun pl i s u hs _ hWaits hu hRunning => ?_, fun pl hDead hAll => ?_⟩
  · cases hStep : pl.step (.run (outIndex pl.insts.length i)) with
    | some q => exact .inl ⟨q, rfl⟩
    | none => exact .inr (consumer_waits_at_output hs hWaits hu hRunning hStep)
  · obtain ⟨-, hStuck⟩ := hDead
    by_cases hOutput : ∃ i < pl.insts.length, WaitsAtOutput pl i
    · obtain ⟨i, hi, hWaits⟩ := hOutput
      refine .inr fun j s hs => ?_
      exact forall_of_outIndex (P := WaitsAtOutput pl) (fun k => waitsAtOutput_outIndex hStuck hAll) hi hWaits j (view_lt hs) s hs
    · refine .inl fun i s hs => (waits_of_no_step hs (view_running hs hAll) (hStuck _)).resolve_right fun hWaits => ?_
      refine hOutput ⟨i, view_lt hs, fun s' hs' => ?_⟩
      obtain rfl : s = s' := Option.some.inj (hs.symm.trans hs')
      exact hWaits

end Sys2Proof.Machine
end

section
/-! SUPPORT. The family of spec/46_system.md: AdjustRelativeBase by its load and its sum (R125), and Halt (R126). -/

namespace Sys2Proof.Machine

variable {s : State} {p1 : Operand} {v : Int}

/-- AdjustRelativeBase with a new base the implementation can hold; `load` and the sum both read the old one (R91, R125). -/
theorem execAdjustRelativeBase_of_admits (hLoad : load p1 s = .ok v) (hFits : s.config.admitsWord (s.rb + v) = true) :
    execAdjustRelativeBase p1 s = .next (advance 2 (setRb (s.rb + v) s)) := by
  simp [execAdjustRelativeBase, hLoad, result_of_admits hFits, bind, Except.bind, settle]

/-- Settles O26: by `execAdjustRelativeBase_of_admits`; its state is the stated one, as writing `rb` leaves `pc`. -/
theorem adjustRelativeBaseResult : Obligations.AdjustRelativeBaseResult := by
  intro s p1 v hLoad hFits
  exact execAdjustRelativeBase_of_admits hLoad hFits

/-- Settles O27: Halt is `setHalted` in every state, which writes `status` and no other element. -/
theorem haltResult : Obligations.HaltResult := by
  intro s
  rfl

end Sys2Proof.Machine
end

section
/-! SUPPORT. The family of spec/60_exceptions.md, first part: the faults of one core (R135, R137, R140). What a faulting step
has done is read off `Effect`; the order of the faults of a three-parameter instruction follows its computation. -/

namespace Sys2Proof.Machine

variable {s t : State} {i : Instr} {f : Int → Int → Int} {p1 p2 p3 : Operand} {a b d : Int} {e : Raised}

/-! ### Without limits, no `CapacityExceeded` (R135) -/

theorem takeFault_faultCode_ne {code : FaultCode} (h : e.code ≠ code) (s : State) :
    (takeFault e s).faultCode ≠ some code := by simpa using h

theorem Effect.no_capacityExceeded (h : Effect i s t) (hs : Unlimited s) (hCode : s.faultCode ≠ some .capacityExceeded) :
    t.faultCode ≠ some .capacityExceeded := by
  cases h with
  | stored | received | emitted | jumped | passed | rebased | halted => exact hCode
  | faulted e hi hCause => exact takeFault_faultCode_ne (hCause hs) _
  | inputFaulted e p v q hi hq hCause => exact takeFault_faultCode_ne (hCause hs) _

theorem Unlimited.pollCancel (h : Unlimited s) : Unlimited (Machine.pollCancel s) := by simpa [Unlimited] using h

/-- Settles O13: the step to Cancelled leaves the record, and without limits neither the fetch (`fetchInstr_noCapacity`) nor an
instruction raises this fault. -/
theorem capacityNeverExceededWithoutLimits : Obligations.CapacityNeverExceededWithoutLimits := by
  intro s t hWord hAddr hCode hStep
  have hs : Unlimited s := ⟨hWord, hAddr⟩
  obtain ⟨-, ⟨-, rfl⟩ | ⟨e, hFetch, rfl⟩ | ⟨i, -, hEffect⟩⟩ := step_cases hStep
  · exact hCode
  · exact takeFault_faultCode_ne (fetchInstr_noCapacity hs e hFetch) _
  · exact hEffect.no_capacityExceeded hs.pollCancel (by simpa using hCode)

/-! ### The order of the faults (R140) -/

theorem binary_of_first_error (h1 : load p1 s = .error e) : binary f p1 p2 s = .error e := by
  simp [binary, h1, bind, Except.bind]

theorem binary_of_second_error (h1 : load p1 s = .ok a) (h2 : load p2 s = .error e) : binary f p1 p2 s = .error e := by
  simp [binary, h1, h2, bind, Except.bind]

/-- The destination comes last: its fault is met with the result computed. -/
theorem threeParam_of_store_error (h1 : load p1 s = .ok a) (h2 : load p2 s = .ok b)
    (hFits : s.config.admitsWord (f a b) = true) (hStore : store p3 (f a b) s = .error e) :
    threeParam f p1 p2 p3 s = .next (takeFault e s) := by
  simp [threeParam, binary_of_loads h1 h2, result_of_admits hFits, hStore, bind, Except.bind, settle]

theorem lessThanWord_eq_ite : lessThanWord = fun a b => if a < b then 1 else 0 := by
  funext a b
  simp [lessThanWord, truthWord]

theorem equalsWord_eq_ite : equalsWord = fun a b => if a = b then 1 else 0 := by
  funext a b
  simp [equalsWord, truthWord]

/-- The four instructions of three parameters with their ALU functions, written out (R100, R101, R105, R106). -/
theorem exec_eq_threeParam_of_alu
    (hi : (i = .add p1 p2 p3 ∧ f = fun a b => a + b) ∨ (i = .multiply p1 p2 p3 ∧ f = fun a b => a * b) ∨
      (i = .lessThan p1 p2 p3 ∧ f = fun a b => if a < b then 1 else 0) ∨
      (i = .equals p1 p2 p3 ∧ f = fun a b => if a = b then 1 else 0)) :
    exec i s = threeParam f p1 p2 p3 s := by
  rcases hi with ⟨rfl, rfl⟩ | ⟨rfl, rfl⟩ | ⟨rfl, rfl⟩ | ⟨rfl, rfl⟩
  · rfl
  · rfl
  · rw [← lessThanWord_eq_ite]; rfl
  · rw [← equalsWord_eq_ite]; rfl

/-- Settles O28: the computation stops at the first of the two loads, the result and the store that raises a fault. -/
theorem threeParameterFaultOrder : Obligations.ThreeParameterFaultOrder := by
  intro s p1 p2 p3 i f hi faulted
  rw [exec_eq_threeParam_of_alu hi]
  refine ⟨fun e h1 => threeParam_of_binary_error (binary_of_first_error h1), fun a h1 =>
    ⟨fun e h2 => threeParam_of_binary_error (binary_of_second_error h1 h2), fun b h2 =>
      ⟨threeParam_of_exceeds h1 h2, fun hFits => ?_⟩⟩⟩
  have hStoreFaults {e : Raised} := threeParam_of_store_error (p3 := p3) (e := e) h1 h2 hFits
  exact ⟨fun hMode => hStoreFaults (store_of_no_addr (effectiveAddr_of_immediate hMode)),
    fun d hAddr => ⟨fun hNeg => hStoreFaults (store_of_neg hAddr hNeg),
      fun h0 hOut => hStoreFaults (store_of_exceeds hAddr h0 hOut)⟩⟩

/-! ### Faults are precise (R137) -/

/-- An instruction that makes a Running core Faulted has only taken its fault; an Input has taken its value before (R115). -/
theorem Effect.of_faulted (h : Effect i s t) (hRunning : s.status = .running) (hFaulted : t.status = .faulted) :
    ∃ e, t = takeFault e s ∨ ∃ p v q, i = .input p ∧ s.inChan = v :: q ∧ t = takeFault e (setIn q s) := by
  cases h with
  | stored | received | emitted | jumped | passed | rebased => cases hRunning.symm.trans hFaulted
  | halted => cases hFaulted
  | faulted e => exact ⟨e, .inl rfl⟩
  | inputFaulted e p v q hi hq => exact ⟨e, .inr ⟨p, v, q, hi, hq, rfl⟩⟩

/-- Settles O37: the fault was the fetch's or the instruction's, and taking it writes `status` and the record alone. -/
theorem faultsArePrecise : Obligations.FaultsArePrecise := by
  intro s t hStep hFaulted
  obtain ⟨hRunning, ⟨-, rfl⟩ | ⟨e, -, rfl⟩ | ⟨i, hFetch, hEffect⟩⟩ := step_cases hStep
  · cases hFaulted
  · simp
  · obtain ⟨e, rfl | ⟨p, v, q, rfl, hq, rfl⟩⟩ := hEffect.of_faulted (by simpa using hRunning) hFaulted
    · simp
    · have hTaken : s.inChan = v :: q := by simpa using hq
      simp [hFetch, hTaken]

end Sys2Proof.Machine
end

section
/-! SUPPORT. The family of spec/60_exceptions.md, second part: `cancel` of one core (R142). -/

namespace Sys2Proof.Machine

variable {s t : State}

/-! ### The step to Cancelled -/

theorem step_of_due (hRunning : s.status = .running) (hc : s.cancel = true)
    (hDue : Config.cancelGrace s.cancelDraw ≤ s.cancelAge) : step s = .next (takeCancel s) := by
  simp [step, engineStep, hRunning, cancelDue, hc, hDue]

/-- The model's count of instructions takes no step away: without the count, the core is at the same ports (`atPorts`). -/
theorem exists_next_of_pollCancel (h : runInstruction (pollCancel s) = .next t) : ∃ u, runInstruction s = .next u := by
  obtain ⟨e, -, hRun⟩ := runInstruction_ported (x := []) (o := s.outChan) (c := s.cancel) (g := s.cancelAge)
    (w := s.cancelDraw) h (by simp)
  have hSame : atPorts [] s.outChan s.cancel s.cancelAge s.cancelDraw (pollCancel s) = s := by
    unfold atPorts pollCancel
    split <;> simp
  exact ⟨_, hSame ▸ hRun⟩

theorem State.blocked.no_instruction (h : s.blocked) : runInstruction s ≠ .next t := by
  obtain ⟨-, hWaits | hWaits⟩ := h <;> simp [hWaits]

theorem step_of_blocked (hc : s.cancel = true) (h : s.blocked) : step s = .next (takeCancel s) := by
  obtain ⟨t, hStep⟩ := step_next_of_cancel h.1 hc
  obtain ⟨-, ⟨-, rfl⟩ | hRun⟩ := engineStep_cases hStep
  · exact hStep
  · obtain ⟨u, hNext⟩ := exists_next_of_pollCancel hRun
    exact absurd hNext h.no_instruction

/-- Settles O46: `takeCancel` writes `status` alone; without `cancel` a step is an instruction, which a blocked core has not. -/
theorem cancellationStep : Obligations.CancellationStep := by
  intro s hRunning
  refine ⟨step_of_due hRunning, step_of_blocked, fun hc t hStep hCancelled => ?_, fun hc hBlocked t hStep => ?_⟩
  · obtain ⟨-, -, -, hCancel, -⟩ := statusTransitions s t hStep
    exact absurd (hCancel hCancelled) (by simp [hc])
  · exact hBlocked.no_instruction ((step_eq_runInstruction hRunning hc).symm.trans hStep)

/-! ### Under `cancel` a core ends -/

/-- A step under `cancel` ends the core, or leaves it with one free instruction less. -/
theorem step_under_cancel (hc : s.cancel = true) (hStep : step s = .next t) :
    t.status ≠ .running ∨ (t.cancel = true ∧ t.cancelAge = s.cancelAge + 1 ∧ t.cancelDraw = s.cancelDraw) := by
  obtain ⟨-, ⟨-, rfl⟩ | hRun⟩ := engineStep_cases hStep
  · exact .inl (by simp)
  · obtain ⟨hCancel, hAge, hDraw, -⟩ := runInstruction_ports hRun
    exact .inr ⟨by simpa [hc] using hCancel, by simpa [pollCancel_cancelAge, hc] using hAge, by simpa using hDraw⟩

theorem run_succ_of_step (k : Nat) (h : step s = .next t) :
    Host.Core.run Sys2Proof.core (k + 1) s = Host.Core.run Sys2Proof.core k t := by
  have hCore : Sys2Proof.core.step s = .next t := h
  simp only [Host.Core.run, hCore]

/-- With `n` free instructions left, the core is terminal after at most `n + 1` steps. -/
theorem exists_run_to_terminal (n : Nat) (hRunning : s.status = .running) (hc : s.cancel = true)
    (hLeft : Config.cancelGrace s.cancelDraw - s.cancelAge = n) :
    ∃ k ≤ n + 1, ∃ t : State, Host.Core.run Sys2Proof.core k s = .next t ∧ t.status ≠ .running := by
  induction n generalizing s with
  | zero => exact ⟨1, by omega, takeCancel s, run_succ_of_step 0 (step_of_due hRunning hc (by omega)), by simp⟩
  | succ n ih =>
    obtain ⟨t, hStep⟩ := step_next_of_cancel hRunning hc
    by_cases hStill : t.status = .running
    · obtain ⟨hCancel, hAge, hDraw⟩ := (step_under_cancel hc hStep).resolve_left (not_not_intro hStill)
      obtain ⟨k, hk, u, hRun, hEnd⟩ := ih hStill hCancel (by rw [hAge, hDraw]; omega)
      exact ⟨k + 1, by omega, u, (run_succ_of_step k hStep).trans hRun, hEnd⟩
    · exact ⟨1, by omega, t, run_succ_of_step 0 hStep, hStill⟩

/-- Settles O47, by induction on the free instructions left. -/
theorem cancelledCoreEndsInFinitelyManySteps : Obligations.CancelledCoreEndsInFinitelyManySteps :=
  fun _ hRunning hc => exists_run_to_terminal _ hRunning hc rfl

end Sys2Proof.Machine
end

section
/-! SUPPORT. The family of spec/60_exceptions.md, third part: the pipeline (R147 to R154, R156). A step of a pipeline is cut in
three: what the choice makes of its own core and what that emits (`Moves`), the placing of both in the ring (`land`), and the
platform's reaction to a fault (`react`). The obligations follow from the laws of these three. -/

namespace Sys2Proof.Machine

variable {p q : Pipeline} {a c : Choice} {i j k n : Nat} {s t b b' : State} {e e' : List Int}

theorem Pipeline.ext_getElem? (h : ∀ k : Nat, p.insts[k]? = q.insts[k]?) : p = q :=
  congrArg Pipeline.mk (List.ext_getElem? h)

/-! ### Values that arrive at a core -/

/-- The core with values appended to its input channel. -/
def deliver (x : List Int) (s : State) : State := setIn (s.inChan ++ x) s

@[simp] theorem deliver_nil (s : State) : deliver [] s = s := by simp [deliver, setIn]

theorem raiseCancel_deliver (x : List Int) (s : State) : raiseCancel (deliver x s) = deliver x (raiseCancel s) := by
  cases hc : s.cancel <;> simp [raiseCancel, deliver, hc, setIn]

/-- What core `k` of `n` receives when core `i` emits `e` (R150). -/
def sentTo (n i : Nat) (e : List Int) (k : Nat) : List Int := if k = outIndex n i then e else []

/-- Different cores write different channels, so deliveries of two of them to one core do not interfere. -/
theorem deliver_comm (hi : i < n) (hj : j < n) (hne : i ≠ j) (s : State) :
    deliver (sentTo n i e k) (deliver (sentTo n j e' k) s) = deliver (sentTo n j e' k) (deliver (sentTo n i e k) s) := by
  by_cases hk : k = outIndex n i
  · have hNot : k ≠ outIndex n j := hk ▸ outIndex_ne hi hj hne
    simp [sentTo, hNot]
  · simp [sentTo, hk]

/-! ### Placing a stepped core in the ring -/

/-- The ring with core `i` replaced by `b`, and `e` moved to the channel that `i` writes. -/
def land (p : Pipeline) (i : Nat) (b : State) (e : List Int) : Pipeline :=
  ⟨(p.insts.set i b).modify (outIndex p.insts.length i) (deliver e)⟩

@[simp] theorem land_length (p : Pipeline) (i : Nat) (b : State) (e : List Int) :
    (land p i b e).insts.length = p.insts.length := by simp [land]

theorem land_nil (p : Pipeline) (i : Nat) (b : State) : land p i b [] = ⟨p.insts.set i b⟩ := by
  have hId : deliver [] = id := funext deliver_nil
  simp [land, hId]

theorem land_getElem? (hi : i < p.insts.length) (k : Nat) :
    (land p i b e).insts[k]? =
      (if k = i then some b else p.insts[k]?).map (deliver (sentTo p.insts.length i e k)) := by
  have hSet : (p.insts.set i b)[k]? = if k = i then some b else p.insts[k]? := by
    by_cases hk : k = i
    · simp [hk, hi]
    · simp [hk, Ne.symm hk]
  have hSent : (if outIndex p.insts.length i = k then deliver e else id) = deliver (sentTo p.insts.length i e k) := by
    by_cases hk : k = outIndex p.insts.length i
    · simp [sentTo, hk]
    · funext s; simp [sentTo, hk, Ne.symm hk]
  rw [← hSet, ← hSent]
  simp only [land, List.getElem?_modify]
  split <;> simp

theorem land_getElem?_self (hi : i < p.insts.length) :
    (land p i b e).insts[i]? = some (deliver (sentTo p.insts.length i e i) b) := by simp [land_getElem? hi]

theorem land_getElem?_of_ne (hi : i < p.insts.length) (hk : k ≠ i) (hs : p.insts[k]? = some s) :
    (land p i b e).insts[k]? = some (deliver (sentTo p.insts.length i e k) s) := by simp [land_getElem? hi, hk, hs]

/-- What two cores leave is the same in either order; the second one has the delivery of the first in its channel. -/
theorem land_comm (hi : i < p.insts.length) (hj : j < p.insts.length) (hne : i ≠ j) :
    land (land p i b e) j (deliver (sentTo p.insts.length i e j) b') e' =
      land (land p j b' e') i (deliver (sentTo p.insts.length j e' i) b) e := by
  refine Pipeline.ext_getElem? fun k => ?_
  have hComm (s : State) := deliver_comm (e := e) (e' := e') (k := k) hi hj hne s
  rw [land_getElem? (p := land p i b e) (by simpa using hj), land_getElem? hi,
    land_getElem? (p := land p j b' e') (by simpa using hi), land_getElem? hj, land_length, land_length]
  by_cases hki : k = i
  · subst hki; simp [hne, hComm]
  · by_cases hkj : k = j
    · subst hkj; simp [hki, hComm]
    · simp only [hki, hkj, if_false, Option.map_map, Function.comp_def, hComm]

theorem putBack_eq_land (hOut : t.outChan = channel p (outIndex p.insts.length i) ++ e) :
    putBack p i t = land p i (setOut [] t) e := by
  simp only [putBack, hOut, List.drop_left]
  rfl

theorem channel_of_getElem? (h : p.insts[k]? = some s) : channel p k = s.inChan := by simp [channel, h]

/-! ### What a choice makes of its own core -/

/-- In `p` the choice is possible; it makes `b` of its core, which emits `e` (R152, R142). -/
inductive Moves (p : Pipeline) : Choice → State → List Int → Prop where
  | run {i : Nat} {s t : State} {e : List Int} (hView : view p i = some s) (hRunning : s.status = .running)
      (hRun : runInstruction s = .next t) (hOut : t.outChan = channel p (outIndex p.insts.length i) ++ e) :
      Moves p (.run i) (setOut [] t) e
  | cancel {i : Nat} {s : State} (hInst : p.insts[i]? = some s) (hRunning : s.status = .running) (hc : s.cancel = true) :
      Moves p (.cancel i) (takeCancel s) []

theorem Moves.inst (h : Moves p c b e) : ∃ s, p.insts[c.index]? = some s ∧ s.status = .running := by
  cases h with
  | run hView hRunning =>
    obtain ⟨u, hu, rfl⟩ := view_some hView
    exact ⟨u, hu, hRunning⟩
  | cancel hInst hRunning => exact ⟨_, hInst, hRunning⟩

theorem Moves.index_lt (h : Moves p c b e) : c.index < p.insts.length := by
  obtain ⟨s, hs, -⟩ := h.inst
  exact (List.getElem?_eq_some_iff.mp hs).1

/-- A core's own channel only loses by its step what the core takes. -/
theorem Moves.inChan_length_le (h : Moves p c b e) : b.inChan.length ≤ (channel p c.index).length := by
  cases h with
  | run hView _ hRun =>
    obtain ⟨-, -, -, hLen⟩ := runInstruction_ports hRun
    exact view_inChan hView ▸ hLen
  | cancel hInst => simp [channel_of_getElem? hInst, Choice.index]

/-- Another core finds no more in the channel it writes than before. -/
theorem Moves.channel_land_length_le (h : Moves p a b e) (hj : j < p.insts.length) (hne : a.index ≠ j) :
    (channel (land p a.index b e) (outIndex p.insts.length j)).length ≤ (channel p (outIndex p.insts.length j)).length := by
  have hSent : sentTo p.insts.length a.index e (outIndex p.insts.length j) = [] :=
    if_neg (outIndex_ne hj h.index_lt hne.symm)
  by_cases hk : outIndex p.insts.length j = a.index
  · rw [hk] at hSent ⊢
    rw [channel_of_getElem? (land_getElem?_self h.index_lt), hSent, deliver_nil]
    exact h.inChan_length_le
  · obtain ⟨s, hs⟩ := exists_view (outIndex_lt hj)
    obtain ⟨u, hu, -⟩ := view_some hs
    rw [channel_of_getElem? (land_getElem?_of_ne h.index_lt hk hu), channel_of_getElem? hu, hSent, deliver_nil]

theorem view_land (hi : i < p.insts.length) (hne : i ≠ j) (hView : view p j = some s) :
    view (land p i b e) j =
      some (atPorts (sentTo p.insts.length i e j) (channel (land p i b e) (outIndex p.insts.length j))
        s.cancel s.cancelAge s.cancelDraw s) := by
  obtain ⟨u, hu, rfl⟩ := view_some hView
  simp [view, land_getElem?_of_ne hi hne.symm hu, atPorts, deliver, setIn]

/-- After the step of another core a choice is still possible and does the same, with what that one sent it in its channel. -/
theorem Moves.after (ha : Moves p a b e) (hMove : Moves p c b' e') (hne : a.index ≠ c.index) :
    Moves (land p a.index b e) c (deliver (sentTo p.insts.length a.index e c.index) b') e' := by
  have hi := ha.index_lt
  cases hMove with
  | @cancel j s hInst hRunning hc => exact .cancel (land_getElem?_of_ne hi hne.symm hInst) hRunning hc
  | @run j s t e' hView hRunning hRun hOut =>
    have hView' : view (land p a.index b e) j = _ := view_land hi hne hView
    have hShorter : (channel (land p a.index b e) (outIndex p.insts.length j)).length ≤ s.outChan.length :=
      view_outChan hView ▸ ha.channel_land_length_le (view_lt hView) hne
    obtain ⟨e₁, hEmits, hRun'⟩ := runInstruction_ported (x := sentTo p.insts.length a.index e j) (c := s.cancel)
      (g := s.cancelAge) (w := s.cancelDraw) hRun hShorter
    obtain rfl : e' = e₁ := List.append_cancel_left (hOut.symm.trans (view_outChan hView ▸ hEmits))
    obtain ⟨hCancel, hAge, hDraw, -⟩ := runInstruction_ports hRun
    have hSame := Moves.run (e := e') hView' hRunning hRun' (by simp [atPorts])
    simpa [atPorts, deliver, setIn, setOut, ← hCancel, ← hAge, ← hDraw, Choice.index] using hSame

/-! ### The platform's reaction to a fault -/

/-- Some core is Faulted. -/
def HasFault (p : Pipeline) : Prop := ∃ s ∈ p.insts, s.status = .faulted

/-- `cancel` set for every core (R156). -/
def raiseAll (p : Pipeline) : Pipeline := ⟨p.insts.map raiseCancel⟩

/-- The platform looks for a fault after an instruction; the step to Cancelled is none. -/
def react : Choice → Pipeline → Pipeline
  | .run _ => propagate
  | .cancel _ => id

theorem hasFault_iff_getElem? : HasFault p ↔ ∃ (k : Nat) (s : State), p.insts[k]? = some s ∧ s.status = .faulted := by
  simp only [HasFault, List.mem_iff_getElem?]
  exact ⟨fun ⟨s, ⟨k, hk⟩, hs⟩ => ⟨k, s, hk, hs⟩, fun ⟨k, s, hk, hs⟩ => ⟨s, ⟨k, hk⟩, hs⟩⟩

theorem propagate_of_hasFault (h : HasFault p) : propagate p = raiseAll p := propagate_of_faulted h

theorem propagate_of_not_hasFault (h : ¬ HasFault p) : propagate p = p :=
  propagate_of_not_faulted fun s hs hf => h ⟨s, hs, hf⟩

@[simp] theorem raiseAll_length (p : Pipeline) : (raiseAll p).insts.length = p.insts.length := by simp [raiseAll]

@[simp] theorem raiseAll_getElem? (p : Pipeline) (k : Nat) :
    (raiseAll p).insts[k]? = p.insts[k]?.map raiseCancel := by simp [raiseAll]

@[simp] theorem hasFault_raiseAll : HasFault (raiseAll p) ↔ HasFault p := by simp [HasFault, raiseAll]

@[simp] theorem raiseAll_raiseAll (p : Pipeline) : raiseAll (raiseAll p) = raiseAll p := by
  simp [raiseAll, Function.comp_def]

@[simp] theorem hasFault_propagate : HasFault (propagate p) ↔ HasFault p := by
  by_cases h : HasFault p
  · rw [propagate_of_hasFault h, hasFault_raiseAll]
  · rw [propagate_of_not_hasFault h]

theorem propagate_propagate (p : Pipeline) : propagate (propagate p) = propagate p := by
  by_cases h : HasFault p
  · rw [propagate_of_hasFault h, propagate_of_hasFault (hasFault_raiseAll.mpr h), raiseAll_raiseAll]
  · rw [propagate_of_not_hasFault h, propagate_of_not_hasFault h]

@[simp] theorem propagate_length (p : Pipeline) : (propagate p).insts.length = p.insts.length := by
  by_cases h : HasFault p
  · simp [propagate_of_hasFault h]
  · rw [propagate_of_not_hasFault h]

theorem react_comm (a c : Choice) (p : Pipeline) : react a (react c p) = react c (react a p) := by
  cases a <;> cases c <;> rfl

@[simp] theorem react_length (c : Choice) (p : Pipeline) : (react c p).insts.length = p.insts.length := by
  cases c <;> simp [react]

/-- The core that steps was Running, so a fault stays and the only new one is its own. -/
theorem Moves.hasFault_land (h : Moves p c b e) :
    HasFault (land p c.index b e) ↔ b.status = .faulted ∨ HasFault p := by
  obtain ⟨s, hs, hRunning⟩ := h.inst
  simp only [hasFault_iff_getElem?]
  constructor
  · rintro ⟨k, u, hk, hu⟩
    by_cases hkc : k = c.index
    · rw [hkc, land_getElem?_self h.index_lt] at hk
      cases hk
      exact .inl hu
    · simp only [land_getElem? h.index_lt, if_neg hkc, Option.map_eq_some_iff] at hk
      obtain ⟨v, hv, rfl⟩ := hk
      exact .inr ⟨k, v, hv, hu⟩
  · rintro (hb | ⟨k, u, hk, hu⟩)
    · exact ⟨_, _, land_getElem?_self h.index_lt, hb⟩
    · have hkc : k ≠ c.index := by
        rintro rfl
        cases hs.symm.trans hk
        cases hRunning.symm.trans hu
      exact ⟨k, _, land_getElem?_of_ne h.index_lt hkc hk, hu⟩

/-! ### A choice after the platform's reaction -/

@[simp] theorem channel_raiseAll (p : Pipeline) (k : Nat) : channel (raiseAll p) k = channel p k := by
  cases h : p.insts[k]? <;> simp [channel, h]

theorem raiseCancel_setOut (x : List Int) (s : State) : raiseCancel (setOut x s) = setOut x (raiseCancel s) := by
  cases hc : s.cancel <;> simp [raiseCancel, hc, setOut]

theorem view_raiseAll (h : view p i = some s) : view (raiseAll p) i = some (raiseCancel s) := by
  obtain ⟨u, hu, rfl⟩ := view_some h
  have hRaise : raiseCancel { u with outChan := channel p (outIndex p.insts.length i) } =
      { raiseCancel u with outChan := channel p (outIndex p.insts.length i) } := raiseCancel_setOut _ u
  simp [hRaise, view, hu]

theorem Moves.raiseAll (h : Moves p c b e) : Moves (raiseAll p) c (raiseCancel b) e := by
  cases h with
  | run hView hRunning hRun hOut =>
    rw [raiseCancel_setOut]
    exact .run (view_raiseAll hView) (by simpa using hRunning) (runInstruction_raiseCancel hRun)
      (by simpa using hOut)
  | @cancel i s hInst hRunning hc =>
    have hSame : raiseCancel (takeCancel s) = takeCancel (raiseCancel s) := by simp [raiseCancel, takeCancel, hc]
    rw [hSame]
    exact .cancel (by simp [hInst]) (by simpa using hRunning) (by simp)

theorem land_raiseAll (hi : i < p.insts.length) : land (raiseAll p) i (raiseCancel b) e = raiseAll (land p i b e) := by
  refine Pipeline.ext_getElem? fun k => ?_
  rw [raiseAll_getElem?, land_getElem? hi, land_getElem? (by simpa using hi), raiseAll_length, raiseAll_getElem?]
  by_cases hk : k = i <;> simp [hk, Function.comp_def, raiseCancel_deliver]

/-- A choice is as possible after the platform's reaction as before it, and the reaction can as well come later. -/
theorem Moves.after_react (h : Moves p c b e) (a : Choice) :
    ∃ b', Moves (react a p) c b' e ∧
      react c (land (react a p) c.index b' e) = react a (react c (land p c.index b e)) := by
  cases a with
  | cancel i => exact ⟨b, h, rfl⟩
  | run i =>
    simp only [react]
    by_cases hFault : HasFault p
    · have hLanded : HasFault (land p c.index b e) := h.hasFault_land.mpr (.inr hFault)
      rw [propagate_of_hasFault hFault]
      refine ⟨raiseCancel b, h.raiseAll, ?_⟩
      rw [land_raiseAll h.index_lt, ← propagate_of_hasFault hLanded]
      exact react_comm c (.run i) _
    · rw [propagate_of_not_hasFault hFault]
      refine ⟨b, h, ?_⟩
      cases h with
      | run => exact (propagate_propagate _).symm
      | @cancel j s hInst hRunning hc =>
        have hNone := (Moves.cancel hInst hRunning hc).hasFault_land.not.mpr (by simp [hFault])
        exact (propagate_of_not_hasFault hNone).symm

/-! ### A step of a pipeline -/

/-- A step of a pipeline is the move of its choice, placed in the ring, and the platform's reaction. -/
theorem step_eq_some : p.step c = some q ↔ ∃ b e, Moves p c b e ∧ q = react c (land p c.index b e) := by
  cases c with
  | run i =>
    rw [step_run]
    constructor
    · rintro ⟨s, t, hView, hRunning, hRun, rfl⟩
      obtain ⟨e, hEmits⟩ := runInstruction_emits hRun
      have hOut := view_outChan hView ▸ hEmits
      exact ⟨_, e, .run hView hRunning hRun hOut, congrArg propagate (putBack_eq_land hOut)⟩
    · rintro ⟨b, e, hMove, rfl⟩
      cases hMove with
      | run hView hRunning hRun hOut =>
        exact ⟨_, _, hView, hRunning, hRun, congrArg propagate (putBack_eq_land hOut).symm⟩
  | cancel i =>
    rw [step_cancel]
    constructor
    · rintro ⟨s, hInst, hRunning, hc, rfl⟩
      exact ⟨_, _, .cancel hInst hRunning hc, (land_nil _ _ _).symm⟩
    · rintro ⟨b, e, hMove, rfl⟩
      cases hMove with
      | cancel hInst hRunning hc => exact ⟨_, hInst, hRunning, hc, land_nil _ _ _⟩

/-- The second of two choices, where both were possible: its own move on what the first has left, then both reactions. -/
theorem step_after (ha : Moves p a b e) (hc : Moves p c b' e') (hne : a.index ≠ c.index) :
    (react a (land p a.index b e)).step c =
      some (react a (react c
        (land (land p a.index b e) c.index (deliver (sentTo p.insts.length a.index e c.index) b') e'))) := by
  obtain ⟨b'', hMove, hReact⟩ := (ha.after hc hne).after_react a
  exact step_eq_some.mpr ⟨b'', e', hMove, hReact.symm⟩

/-- Settles O53: the moves commute by `land_comm`, and so do the reactions. -/
theorem pipelineStepsCommute : Obligations.PipelineStepsCommute := by
  intro p q r a c hne hq hr
  obtain ⟨b, e, ha, rfl⟩ := step_eq_some.mp hq
  obtain ⟨b', e', hc, rfl⟩ := step_eq_some.mp hr
  refine ⟨_, step_after ha hc hne, ?_⟩
  rw [step_after hc ha hne.symm, land_comm ha.index_lt hc.index_lt hne, react_comm]

/-! ### What a step does to the other cores -/

theorem propagate_getElem?_of_hasFault (hFault : HasFault p) (hk : p.insts[k]? = some s) :
    (propagate p).insts[k]? = some (raiseCancel s) := by
  simp [propagate_of_hasFault hFault, hk]

theorem react_getElem? (c : Choice) (hk : p.insts[k]? = some s) :
    (react c p).insts[k]? = some s ∨ HasFault (react c p) ∧ (react c p).insts[k]? = some (raiseCancel s) := by
  cases c with
  | cancel i => exact .inl hk
  | run i =>
    by_cases hFault : HasFault p
    · exact .inr ⟨hasFault_propagate.mpr hFault, propagate_getElem?_of_hasFault hFault hk⟩
    · exact .inl (by rwa [react, propagate_of_not_hasFault hFault])

/-- Settles O51: another core gets what is sent to it, and `cancel` in the platform's reaction to a fault. -/
theorem pipelineIsolation : Obligations.PipelineIsolation := by
  intro p q ch hStep
  obtain ⟨b, e, hMove, rfl⟩ := step_eq_some.mp hStep
  refine ⟨by simp, fun j s hne hj => ⟨sentTo p.insts.length ch.index e j, fun hSent => ?_, ?_⟩⟩
  · by_contra hNot
    exact hSent (if_neg hNot)
  · exact react_getElem? ch (land_getElem?_of_ne hMove.index_lt hne hj)

theorem propagate_cancelCoversFaults (p : Pipeline) : (propagate p).CancelCoversFaults := by
  intro hFault s hs
  rw [propagate_of_hasFault (hasFault_propagate.mp hFault)] at hs
  obtain ⟨u, -, rfl⟩ := List.mem_map.mp hs
  exact raiseCancel_cancel u

/-- The step to Cancelled makes no fault, and its own core is under `cancel` already. -/
theorem cancelCoversFaults_set_takeCancel (h : p.CancelCoversFaults) (hc : s.cancel = true) (i : Nat) :
    (⟨p.insts.set i (takeCancel s)⟩ : Pipeline).CancelCoversFaults := by
  rintro ⟨f, hf, hFaulted⟩ u hu
  have hOld : f ∈ p.insts := by
    rcases List.mem_or_eq_of_mem_set hf with hOld | rfl
    · exact hOld
    · cases hFaulted
  rcases List.mem_or_eq_of_mem_set hu with hu | rfl
  · exact h ⟨f, hOld, hFaulted⟩ u hu
  · exact hc

/-! ### The pipeline as it is built (R150, R151) -/

theorem seeds_getElem? {x0 : Int} {phases : List Int} (h : k < phases.length) :
    (seeds x0 phases)[k]? = some (if k = 0 then [phases[k], x0] else [phases[k]]) := by
  cases phases with
  | nil => simp at h
  | cons phase phases =>
    cases k with
    | zero => simp [seeds]
    | succ k =>
      have hk : k < phases.length := by simpa using h
      simp [seeds, hk]

theorem seeds_length (x0 : Int) (phases : List Int) : (seeds x0 phases).length = phases.length := by
  cases phases <;> simp [seeds]

theorem mem_build {cfg : Config} {image phases : List Int} {x0 : Int}
    (h : s ∈ (Pipeline.build cfg image x0 phases).insts) : ∃ seed, s = boot cfg image seed := by
  obtain ⟨seed, -, rfl⟩ := List.mem_map.mp h
  exact ⟨seed, rfl⟩

/-- Settles O50: the cores are booted cores, one for each seed. -/
theorem pipelineSeeding : Obligations.PipelineSeeding := by
  intro cfg image x0 phases p
  refine ⟨by simp [p, Pipeline.build, seeds_length], fun i hi => ?_, fun s hs => ?_⟩
  · have hInst : p.insts[i]? = some (boot cfg image (if i = 0 then [phases[i], x0] else [phases[i]])) := by
      simp only [p, Pipeline.build, List.getElem?_map, seeds_getElem? hi, Option.map_some]
    exact channel_of_getElem? hInst
  · obtain ⟨seed, rfl⟩ := mem_build hs
    exact ⟨rfl, rfl, rfl, rfl, rfl, rfl, rfl, rfl⟩

/-- Settles O52: a built pipeline has no fault; after an instruction the platform has reacted, and the step to Cancelled makes
no fault. -/
theorem pipelineFaultSetsCancelEverywhere : Obligations.PipelineFaultSetsCancelEverywhere := by
  refine ⟨fun cfg image x0 phases => ?_, fun p q ch hCovers hStep => ?_⟩
  · rintro ⟨s, hs, hFaulted⟩
    obtain ⟨seed, rfl⟩ := mem_build hs
    cases hFaulted
  · cases ch with
    | run i =>
      obtain ⟨s, t, -, -, -, rfl⟩ := step_run.mp hStep
      exact propagate_cancelCoversFaults _
    | cancel i =>
      obtain ⟨s, -, -, hc, rfl⟩ := step_cancel.mp hStep
      exact cancelCoversFaults_set_takeCancel hCovers hc i

/-! ### The whole effect of a step (R150, R152) -/

/-- Core `k` after core `i` has become `b` and has emitted `e`: what the ring holds at `k`, with what is sent there. -/
theorem land_getElem?_ite (hi : i < p.insts.length) (hk : p.insts[k]? = some s) :
    (land p i b e).insts[k]? = some (deliver (sentTo p.insts.length i e k) (if k = i then b else s)) := by
  rw [land_getElem? hi, hk]
  split <;> rfl

theorem deliver_sentTo (n i k : Nat) (e : List Int) (s : State) :
    deliver (sentTo n i e k) s = if k = outIndex n i then { s with inChan := s.inChan ++ e } else s := by
  unfold sentTo
  split
  · rfl
  · exact deliver_nil s

/-- A core that does not exist, or is not Running, has neither step. -/
theorem step_eq_none_of_not_running (h : ∀ s, p.insts[c.index]? = some s → s.status ≠ .running) : p.step c = none := by
  refine Option.eq_none_iff_forall_ne_some.mpr fun q hStep => ?_
  obtain ⟨b, e, hMove, -⟩ := step_eq_some.mp hStep
  obtain ⟨s, hs, hRunning⟩ := hMove.inst
  exact h s hs hRunning

theorem step_cancel_eq_none (hs : p.insts[i]? = some s) (hc : s.cancel = false) : p.step (.cancel i) = none := by
  refine Option.eq_none_iff_forall_ne_some.mpr fun q hStep => ?_
  obtain ⟨u, hu, -, hCancel, -⟩ := step_cancel.mp hStep
  cases hs.symm.trans hu
  simp [hc] at hCancel

theorem step_run_eq_none {r : Fault} (hView : view p i = some s) (hWaits : runInstruction s = .fault r) :
    p.step (.run i) = none := by
  refine Option.eq_none_iff_forall_ne_some.mpr fun q hStep => ?_
  obtain ⟨u, t, hu, -, hRun, -⟩ := step_run.mp hStep
  cases hView.symm.trans hu
  simp [hWaits] at hRun

/-- Settles O60: the step by `step_eq_some`, each core after it by `land_getElem?_ite` and the platform's reaction; where
there is no move, there is no step. -/
theorem pipelineStepEffect : Obligations.PipelineStepEffect := by
  intro p i
  refine ⟨?_, fun s hs hRunning hc => step_cancel.mpr ⟨s, hs, hRunning, hc, rfl⟩,
    fun hNone => ?_, fun s hs hNot => ?_, fun s => step_cancel_eq_none, fun s r => step_run_eq_none⟩
  · intro s t hView hRunning hRun j
    obtain ⟨e, hEmits⟩ := runInstruction_emits hRun
    have hOut : t.outChan = channel p j ++ e := view_outChan hView ▸ hEmits
    refine ⟨e, propagate (land p i (setOut [] t) e), hOut, step_eq_some.mpr ⟨_, e, .run hView hRunning hRun hOut, rfl⟩,
      by simp, ?_⟩
    intro k u hk moved after
    have hAfter : (land p i (setOut [] t) e).insts[k]? = some after := by
      rw [land_getElem?_ite (view_lt hView) hk, deliver_sentTo]
      rfl
    refine ⟨fun hFault => ?_, fun hNoFault => ?_⟩
    · exact propagate_getElem?_of_hasFault (hasFault_propagate.mp hFault) hAfter
    · have hNone : ¬ HasFault (land p i (setOut [] t) e) := fun h =>
        have ⟨f, hf, hFaulted⟩ := hasFault_propagate.mpr h
        hNoFault f hf hFaulted
      rwa [propagate_of_not_hasFault hNone]
  · have hNotRunning : ∀ u : State, p.insts[i]? = some u → u.status ≠ .running := by simp [hNone]
    exact ⟨step_eq_none_of_not_running (c := .run i) hNotRunning, step_eq_none_of_not_running (c := .cancel i) hNotRunning⟩
  · have hNotRunning : ∀ u, p.insts[i]? = some u → u.status ≠ .running := fun u hu => by
      cases hs.symm.trans hu
      exact hNot
    exact ⟨step_eq_none_of_not_running (c := .run i) hNotRunning, step_eq_none_of_not_running (c := .cancel i) hNotRunning⟩

end Sys2Proof.Machine
end

section
/-! SUPPORT. The family of spec/60_exceptions.md, fourth part: the outcome of a pipeline (R155, R156). -/

namespace Sys2Proof.Machine

variable {p : Pipeline} {s : State} {l : List State} {o : Outcome}

/-- The outcome names a core of the list, counted from `i`, with what its fault record holds. -/
theorem firstFault_eq_some {i : Nat} (h : firstFault i l = some o) :
    ∃ k s code info, l[k]? = some s ∧ s.faultCode = some code ∧ s.faultInfo = some info ∧
      o = .networkFault (i + k) code info := by
  induction l generalizing i with
  | nil => cases h
  | cons s l ih =>
    unfold firstFault at h
    split at h
    · next code info hCode hInfo => exact ⟨0, s, code, info, rfl, hCode, hInfo, (Option.some.inj h).symm⟩
    · obtain ⟨k, u, code, info, hk, hCode, hInfo, rfl⟩ := ih h
      exact ⟨k + 1, u, code, info, hk, hCode, hInfo, by rw [Nat.add_assoc, Nat.add_comm 1 k]⟩

theorem exists_firstFault {code : FaultCode} {info : Int} (hs : s ∈ l) (hCode : s.faultCode = some code)
    (hInfo : s.faultInfo = some info) (i : Nat) : ∃ o, firstFault i l = some o := by
  induction l generalizing i with
  | nil => cases hs
  | cons u l ih =>
    unfold firstFault
    split
    · exact ⟨_, rfl⟩
    · next hNone =>
      rcases List.mem_cons.mp hs with rfl | hRest
      · exact absurd hInfo (hNone code info hCode)
      · exact ih hRest (i + 1)

theorem State.Inv.status_of_faultCode {code : FaultCode} (h : s.Inv) (hCode : s.faultCode = some code) :
    s.status = .faulted := by
  obtain ⟨-, hIff, -⟩ := h
  exact hIff.mpr (by simp [hCode])

theorem State.Inv.record_of_faulted (h : s.Inv) (hFaulted : s.status = .faulted) :
    ∃ code info, s.faultCode = some code ∧ s.faultInfo = some info := by
  obtain ⟨-, hIff, hBoth⟩ := h
  have hCode := hIff.mp hFaulted
  obtain ⟨code, hc⟩ := Option.isSome_iff_exists.mp hCode
  obtain ⟨info, hi⟩ := Option.isSome_iff_exists.mp (hBoth ▸ hCode)
  exact ⟨code, info, hc, hi⟩

theorem allHalted_iff : p.insts.all (fun s => s.status == .halted) = true ↔ ∀ s ∈ p.insts, s.status = .halted := by
  simp

/-- A pipeline whose cores are all Halted is joined, and reports the front of channel 0, if there is one (R155). -/
theorem outcome_of_halted (hJoined : p.joined = true) (h : ∀ s ∈ p.insts, s.status = .halted) :
    (∃ v q, channel p 0 = v :: q ∧ p.outcome = some (.value v)) ∨ (channel p 0 = [] ∧ p.outcome = some .noResult) := by
  unfold Pipeline.outcome
  rw [if_pos hJoined, if_pos (allHalted_iff.mpr h)]
  cases channel p 0 with
  | nil => exact .inr ⟨rfl, rfl⟩
  | cons v q => exact .inl ⟨v, q, rfl, rfl⟩

theorem outcome_of_not_halted (hJoined : p.joined = true) (h : ¬ ∀ s ∈ p.insts, s.status = .halted) :
    p.outcome = firstFault 0 p.insts := by
  unfold Pipeline.outcome
  rw [if_pos hJoined, if_neg (allHalted_iff.not.mpr h)]

theorem joined_of_outcome (h : p.outcome = some o) : p.joined = true := by
  unfold Pipeline.outcome at h
  split at h
  · next hJoined => exact hJoined
  · cases h

/-- Settles O55: with every core Halted the outcome is read from channel 0, and otherwise it is the first fault record,
which the invariant ties to a Faulted core. -/
theorem pipelineOutcomeIsAllowed : Obligations.PipelineOutcomeIsAllowed := by
  refine fun p hInv => ⟨fun o hOutcome => ⟨joined_of_outcome hOutcome, ?_⟩, fun hJoined hEnd => ?_⟩
  · have hJoined := joined_of_outcome hOutcome
    by_cases hHalted : ∀ s ∈ p.insts, s.status = .halted
    · rcases outcome_of_halted hJoined hHalted with ⟨v, q, hFront, hValue⟩ | ⟨hEmpty, hNone⟩
      · cases hOutcome.symm.trans hValue
        exact .value v q hHalted hFront
      · cases hOutcome.symm.trans hNone
        exact .noResult hHalted hEmpty
    · rw [outcome_of_not_halted hJoined hHalted] at hOutcome
      obtain ⟨k, s, code, info, hk, hCode, hInfo, rfl⟩ := firstFault_eq_some hOutcome
      rw [Nat.zero_add]
      exact .networkFault k s code info hJoined hk ((hInv s (List.mem_of_getElem? hk)).status_of_faultCode hCode) hCode hInfo
  · by_cases hHalted : ∀ s ∈ p.insts, s.status = .halted
    · rcases outcome_of_halted hJoined hHalted with ⟨v, q, -, hValue⟩ | ⟨-, hNone⟩
      · exact ⟨_, hValue⟩
      · exact ⟨_, hNone⟩
    · obtain ⟨s, hs, hFaulted⟩ := hEnd.resolve_left hHalted
      obtain ⟨code, info, hCode, hInfo⟩ := (hInv s hs).record_of_faulted hFaulted
      rw [outcome_of_not_halted hJoined hHalted]
      exact exists_firstFault hs hCode hInfo 0

end Sys2Proof.Machine
end

section
/-! SUPPORT. The family of spec/60_exceptions.md, fifth part: the search (R158). First its enumeration of the permutations,
then how it ends, by one law for each kind of run it comes to, then its ties to the pipelines' schedules. -/

namespace Sys2Proof.Machine

variable {xs l : List Int} {c : Int × List Int} {n : Nat}

/-! ### The permutations of a range -/

theorem picks_perm (h : c ∈ picks xs) : (c.1 :: c.2).Perm xs := by
  induction xs generalizing c with
  | nil => cases h
  | cons x xs ih =>
    rcases List.mem_cons.mp h with rfl | h
    · exact .refl _
    · obtain ⟨d, hd, rfl⟩ := List.mem_map.mp h
      exact (List.Perm.swap x d.1 d.2).trans ((ih hd).cons x)

theorem map_fst_picks (xs : List Int) : (picks xs).map Prod.fst = xs := by
  induction xs with
  | nil => rfl
  | cons x xs ih => simp [picks, Function.comp_def, ih]

theorem picks_sublist (h : c ∈ picks xs) : c.2.Sublist xs := by
  induction xs generalizing c with
  | nil => cases h
  | cons x xs ih =>
    rcases List.mem_cons.mp h with rfl | h
    · exact List.sublist_cons_self x xs
    · obtain ⟨d, hd, rfl⟩ := List.mem_map.mp h
      exact (ih hd).cons_cons x

/-- A permutation begins with one of the values and goes on with a permutation of those that are left. -/
theorem cons_perm_iff_picks {y : Int} : (y :: l).Perm xs ↔ ∃ c ∈ picks xs, c.1 = y ∧ l.Perm c.2 := by
  constructor
  · intro h
    have hy : y ∈ (picks xs).map Prod.fst := by
      rw [map_fst_picks]
      exact h.subset List.mem_cons_self
    obtain ⟨c, hc, rfl⟩ := List.mem_map.mp hy
    exact ⟨c, hc, rfl, (h.trans (picks_perm hc).symm).cons_inv⟩
  · rintro ⟨c, hc, rfl, hl⟩
    exact (hl.cons c.1).trans (picks_perm hc)

theorem mem_permsOf (hLen : xs.length = n) : l ∈ permsOf n xs ↔ l.Perm xs := by
  induction n generalizing xs l with
  | zero =>
    obtain rfl := List.eq_nil_of_length_eq_zero hLen
    simp [permsOf]
  | succ n ih =>
    have hLeft {c : Int × List Int} (hc : c ∈ picks xs) : c.2.length = n := by
      have := (picks_perm hc).length_eq
      simp only [List.length_cons] at this
      omega
    cases l with
    | nil =>
      have hNe : xs ≠ [] := by rintro rfl; cases hLen
      simp [permsOf, List.nil_perm, hNe]
    | cons y l =>
      rw [cons_perm_iff_picks]
      simp only [permsOf, List.mem_flatMap, List.mem_map, List.cons.injEq]
      constructor
      · rintro ⟨c, hc, r, hr, rfl, rfl⟩
        exact ⟨c, hc, rfl, (ih (hLeft hc)).mp hr⟩
      · rintro ⟨c, hc, rfl, hl⟩
        exact ⟨c, hc, l, (ih (hLeft hc)).mpr hl, rfl, rfl⟩

/-- The enumeration of values in ascending order is in lexicographic order. -/
theorem permsOf_pairwise_lex (n : Nat) (h : xs.Pairwise (· < ·)) : (permsOf n xs).Pairwise (List.Lex (· < ·)) := by
  induction n generalizing xs with
  | zero => exact List.pairwise_singleton _ _
  | succ n ih =>
    have hFirsts : (picks xs).Pairwise fun c d => c.1 < d.1 := by
      rwa [← List.pairwise_map, map_fst_picks]
    refine List.pairwise_flatMap.mpr ⟨fun c hc => ?_, hFirsts.imp fun {c d} hcd => ?_⟩
    · exact List.pairwise_map.mpr ((ih (h.sublist (picks_sublist hc))).imp .cons)
    · intro l hl r hr
      obtain ⟨l', -, rfl⟩ := List.mem_map.mp hl
      obtain ⟨r', -, rfl⟩ := List.mem_map.mp hr
      exact .rel hcd

theorem mem_permutations {range : List Int} : l ∈ permutations range ↔ l.Perm range := by
  have hSorted := List.perm_insertionSort (· ≤ ·) range
  rw [permutations, mem_permsOf (List.length_insertionSort _ _)]
  exact ⟨fun h => h.trans hSorted, fun h => h.trans hSorted.symm⟩

/-- Settles O58: the values left after each first value are enumerated in their turn, on the range put in order. -/
theorem permutationsAreComplete : Obligations.PermutationsAreComplete := by
  refine fun range => ⟨fun l => mem_permutations, fun hNodup => permsOf_pairwise_lex _ ?_⟩
  have hDistinct : (range.insertionSort (· ≤ ·)).Nodup := (List.perm_insertionSort _ range).nodup_iff.mpr hNodup
  exact ((List.pairwise_insertionSort (· ≤ ·) range).and hDistinct).imp fun ⟨hLe, hNe⟩ => lt_of_le_of_ne hLe hNe

/-! ### The search, run by run -/

variable {runOf : List Int → Option Outcome} {best : Option (List Int × Int)} {x phases : List Int}
  {ls : List (List Int)} {v bv : Int} {o : Outcome} {r : Option Outcome}

/-- The best so far after a run with a value: only a larger value takes the place of another. -/
def better (best : Option (List Int × Int)) (phases : List Int) (v : Int) : List Int × Int :=
  match best with
  | none => (phases, v)
  | some (bp, bv) => if bv < v then (phases, v) else (bp, bv)

theorem searchFrom_endless (h : runOf x = none) : searchFrom runOf best (x :: ls) = none := by
  cases best <;> simp [searchFrom, h]

theorem searchFrom_stopped (h : runOf x = some o) (ho : ∀ v, o ≠ .value v) :
    searchFrom runOf best (x :: ls) = some (.stopped o) := by
  cases o with
  | value v => exact absurd rfl (ho v)
  | noResult | networkFault => cases best <;> simp [searchFrom, h]

theorem searchFrom_value (h : runOf x = some (.value v)) :
    searchFrom runOf best (x :: ls) = searchFrom runOf (some (better best x v)) ls := by
  rcases best with _ | ⟨bp, bv⟩
  · simp [searchFrom, h, better]
  · by_cases hv : bv < v <;> simp [searchFrom, h, better, hv]

/-- The search comes to a run `r`, each one before it having a value. -/
def ComesTo (runOf : List Int → Option Outcome) (ls : List (List Int)) (r : Option Outcome) : Prop :=
  ∃ before phases after, ls = before ++ phases :: after ∧ runOf phases = r ∧
    ∀ x ∈ before, ∃ w, runOf x = some (.value w)

theorem not_comesTo_nil : ¬ ComesTo runOf [] r := by
  rintro ⟨before, phases, after, h, -⟩
  simp at h

theorem comesTo_cons :
    ComesTo runOf (x :: ls) r ↔ runOf x = r ∨ (∃ w, runOf x = some (.value w)) ∧ ComesTo runOf ls r := by
  constructor
  · rintro ⟨_ | ⟨y, before⟩, phases, after, h, hr, hBefore⟩
    · obtain ⟨rfl, rfl⟩ := List.cons.inj h
      exact .inl hr
    · obtain ⟨rfl, rfl⟩ := List.cons.inj h
      obtain ⟨hx, hBefore⟩ := List.forall_mem_cons.mp hBefore
      exact .inr ⟨hx, before, phases, after, rfl, hr, hBefore⟩
  · rintro (hr | ⟨hx, before, phases, after, rfl, hr, hBefore⟩)
    · exact ⟨[], x, ls, rfl, hr, by simp⟩
    · exact ⟨x :: before, phases, after, rfl, hr, List.forall_mem_cons.mpr ⟨hx, hBefore⟩⟩

/-- Every run has a value, and none is above `v`. -/
def AllAtMost (runOf : List Int → Option Outcome) (ls : List (List Int)) (v : Int) : Prop :=
  ∀ x ∈ ls, ∃ w, runOf x = some (.value w) ∧ w ≤ v

/-- `phases` has the value `v`, which is above all before it and at least all after it (R158). -/
def FirstMax (runOf : List Int → Option Outcome) (ls : List (List Int)) (phases : List Int) (v : Int) : Prop :=
  ∃ before after, ls = before ++ phases :: after ∧ runOf phases = some (.value v) ∧
    (∀ x ∈ before, ∃ w, runOf x = some (.value w) ∧ w < v) ∧ AllAtMost runOf after v

theorem not_firstMax_nil : ¬ FirstMax runOf [] phases v := by
  rintro ⟨before, after, h, -⟩
  simp at h

theorem firstMax_cons : FirstMax runOf (x :: ls) phases v ↔
    (x = phases ∧ runOf x = some (.value v) ∧ AllAtMost runOf ls v) ∨
      ((∃ w, runOf x = some (.value w) ∧ w < v) ∧ FirstMax runOf ls phases v) := by
  constructor
  · rintro ⟨_ | ⟨y, before⟩, after, h, hv, hBefore, hAfter⟩
    · obtain ⟨rfl, rfl⟩ := List.cons.inj h
      exact .inl ⟨rfl, hv, hAfter⟩
    · obtain ⟨rfl, rfl⟩ := List.cons.inj h
      obtain ⟨hx, hBefore⟩ := List.forall_mem_cons.mp hBefore
      exact .inr ⟨hx, before, after, rfl, hv, hBefore, hAfter⟩
  · rintro (⟨rfl, hv, hAfter⟩ | ⟨hx, before, after, rfl, hv, hBefore, hAfter⟩)
    · exact ⟨[], ls, rfl, hv, by simp, hAfter⟩
    · exact ⟨x :: before, after, rfl, hv, List.forall_mem_cons.mpr ⟨hx, hBefore⟩, hAfter⟩

/-! ### How the search ends -/

/-- The three kinds of run the search can come to. -/
theorem run_cases (runOf : List Int → Option Outcome) (x : List Int) :
    runOf x = none ∨ (∃ o, runOf x = some o ∧ ∀ v, o ≠ .value v) ∨ ∃ v, runOf x = some (.value v) := by
  rcases runOf x with _ | (v | _ | ⟨i, code, info⟩)
  · exact .inl rfl
  · exact .inr (.inr ⟨v, rfl⟩)
  · exact .inr (.inl ⟨_, rfl, nofun⟩)
  · exact .inr (.inl ⟨_, rfl, nofun⟩)

theorem searchFrom_eq_none : searchFrom runOf best ls = none ↔ ComesTo runOf ls none := by
  induction ls generalizing best with
  | nil => cases best <;> simp [searchFrom, not_comesTo_nil]
  | cons x ls ih =>
    rw [comesTo_cons]
    rcases run_cases runOf x with hx | ⟨o, hx, ho⟩ | ⟨v, hx⟩
    · simp [searchFrom_endless hx, hx]
    · simp [searchFrom_stopped hx ho, hx, ho]
    · simp [searchFrom_value hx, hx, ih]

theorem searchFrom_eq_stopped :
    searchFrom runOf best ls = some (.stopped o) ↔ (∀ v, o ≠ .value v) ∧ ComesTo runOf ls (some o) := by
  induction ls generalizing best with
  | nil => cases best <;> simp [searchFrom, not_comesTo_nil]
  | cons x ls ih =>
    rw [comesTo_cons]
    rcases run_cases runOf x with hx | ⟨o', hx, ho⟩ | ⟨v, hx⟩
    · simp [searchFrom_endless hx, hx]
    · simp only [searchFrom_stopped hx ho, hx, Option.some.injEq, SearchEnd.stopped.injEq, ho, exists_false, false_and,
        or_false]
      exact ⟨fun h => ⟨h ▸ ho, h⟩, And.right⟩
    · rw [searchFrom_value hx, ih]
      simp only [hx, Option.some.injEq, Outcome.value.injEq, exists_eq', true_and]
      exact ⟨fun ⟨ho, h⟩ => ⟨ho, .inr h⟩, fun ⟨ho, h⟩ => ⟨ho, h.resolve_left fun hEq => ho v hEq.symm⟩⟩

theorem searchFrom_eq_nothing : searchFrom runOf best ls = some .nothing ↔ best = none ∧ ls = [] := by
  induction ls generalizing best with
  | nil => rcases best with _ | ⟨bp, bv⟩ <;> simp [searchFrom]
  | cons x ls ih =>
    rcases run_cases runOf x with hx | ⟨o, hx, ho⟩ | ⟨v, hx⟩
    · simp [searchFrom_endless hx]
    · simp [searchFrom_stopped hx ho]
    · simp [searchFrom_value hx, ih]

/-- With a best so far, the search selects that one, where no run left is above it, or the first maximum of the rest. -/
theorem searchFrom_some_eq_selected {bp : List Int} : searchFrom runOf (some (bp, bv)) ls = some (.selected phases v) ↔
    (bp = phases ∧ bv = v ∧ AllAtMost runOf ls v) ∨ (bv < v ∧ FirstMax runOf ls phases v) := by
  induction ls generalizing bp bv with
  | nil => simp [searchFrom, not_firstMax_nil, AllAtMost]
  | cons x ls ih =>
    rw [firstMax_cons]
    have hAll : AllAtMost runOf (x :: ls) v ↔ (∃ w, runOf x = some (.value w) ∧ w ≤ v) ∧ AllAtMost runOf ls v :=
      List.forall_mem_cons
    rcases run_cases runOf x with hx | ⟨o, hx, ho⟩ | ⟨w, hx⟩
    · simp [searchFrom_endless hx, hAll, hx]
    · simp [searchFrom_stopped hx ho, hAll, hx, ho]
    · rw [searchFrom_value hx, hAll]
      simp only [hx, Option.some.injEq, Outcome.value.injEq, exists_eq_left', better]
      split
      · next hw =>
        rw [ih]
        constructor
        · rintro (⟨rfl, rfl, h⟩ | ⟨hwv, h⟩)
          · exact .inr ⟨hw, .inl ⟨rfl, rfl, h⟩⟩
          · exact .inr ⟨hw.trans hwv, .inr ⟨hwv, h⟩⟩
        · rintro (⟨-, rfl, hle, -⟩ | ⟨-, ⟨rfl, rfl, h⟩ | ⟨hwv, h⟩⟩)
          · exact absurd hw (not_lt.mpr hle)
          · exact .inl ⟨rfl, rfl, h⟩
          · exact .inr ⟨hwv, h⟩
      · next hw =>
        rw [ih]
        constructor
        · rintro (⟨rfl, rfl, h⟩ | ⟨hbv, h⟩)
          · exact .inl ⟨rfl, rfl, not_lt.mp hw, h⟩
          · exact .inr ⟨hbv, .inr ⟨lt_of_le_of_lt (not_lt.mp hw) hbv, h⟩⟩
        · rintro (⟨rfl, rfl, -, h⟩ | ⟨hbv, ⟨rfl, rfl, h⟩ | ⟨-, h⟩⟩)
          · exact .inl ⟨rfl, rfl, h⟩
          · exact absurd hbv hw
          · exact .inr ⟨hbv, h⟩

theorem searchFrom_none_eq_selected :
    searchFrom runOf none ls = some (.selected phases v) ↔ FirstMax runOf ls phases v := by
  cases ls with
  | nil => simp [searchFrom, not_firstMax_nil]
  | cons x ls =>
    rw [firstMax_cons]
    rcases run_cases runOf x with hx | ⟨o, hx, ho⟩ | ⟨w, hx⟩
    · simp [searchFrom_endless hx, hx]
    · simp [searchFrom_stopped hx ho, hx, ho]
    · rw [searchFrom_value hx]
      simp only [better, searchFrom_some_eq_selected, hx, Option.some.injEq, Outcome.value.injEq, exists_eq_left']

theorem search_ne_nothing (runOf : List Int → Option Outcome) (range : List Int) :
    search runOf range ≠ some .nothing := fun h => by
  obtain ⟨-, hNil⟩ := searchFrom_eq_nothing.mp h
  have hSelf : range ∈ permutations range := mem_permutations.mpr (.refl _)
  simp [hNil] at hSelf

/-- A run the search comes to, where every run has a value, has one. -/
theorem ComesTo.value (h : ComesTo runOf ls r) (hAll : ∀ x ∈ ls, ∃ w, runOf x = some (.value w)) :
    ∃ w, r = some (.value w) := by
  obtain ⟨before, phases, after, rfl, rfl, -⟩ := h
  exact hAll phases (by simp)

/-- Of the four ends, two come from a run without a value, and one from an empty enumeration. -/
theorem exists_selected {range : List Int} (hAll : ∀ x ∈ permutations range, ∃ w, runOf x = some (.value w)) :
    ∃ phases v, search runOf range = some (.selected phases v) := by
  cases h : search runOf range with
  | none =>
    obtain ⟨w, hw⟩ := (searchFrom_eq_none.mp h).value hAll
    cases hw
  | some e =>
    cases e with
    | selected phases v => exact ⟨phases, v, rfl⟩
    | stopped o =>
      obtain ⟨ho, hComes⟩ := searchFrom_eq_stopped.mp h
      obtain ⟨w, hw⟩ := hComes.value hAll
      exact absurd (Option.some.inj hw) (ho w)
    | nothing => exact absurd h (search_ne_nothing runOf range)

/-- Settles O56: one characterisation of `searchFrom` for each end, at the start of the search. -/
theorem searchSelectsTheFirstMaximum : Obligations.SearchSelectsTheFirstMaximum := fun runOf range =>
  ⟨fun _ _ => searchFrom_none_eq_selected, exists_selected, fun _ => searchFrom_eq_stopped, searchFrom_eq_none,
    search_ne_nothing runOf range⟩

/-! ### The runs of the pipelines (R155 to R157) -/

theorem FirstMax.mem (h : FirstMax runOf ls phases v) : phases ∈ ls ∧ runOf phases = some (.value v) := by
  obtain ⟨before, after, rfl, hv, -⟩ := h
  exact ⟨by simp, hv⟩

theorem ComesTo.mem (h : ComesTo runOf ls r) : ∃ phases ∈ ls, runOf phases = r := by
  obtain ⟨before, phases, after, rfl, hr, -⟩ := h
  exact ⟨phases, by simp, hr⟩

/-- Settles O57: each end of the search comes from the run of a permutation it enumerates, which `RunsOf` ties to a schedule. -/
theorem searchIsTiedToTheRuns : Obligations.SearchIsTiedToTheRuns := by
  intro cfg image x0 range runOf hRuns ends
  refine ⟨fun phases v h => ?_, fun o h => ?_, fun h => ?_⟩
  · obtain ⟨hMem, hValue⟩ := (searchFrom_none_eq_selected.mp h).mem
    obtain ⟨schedule, p, hEnds, hReports⟩ := (hRuns phases hMem).1 _ hValue
    cases hReports with
    | value _ q hHalted hFront => exact ⟨mem_permutations.mp hMem, p, ⟨schedule, hEnds⟩, hHalted, q, hFront⟩
  · obtain ⟨-, hComes⟩ := searchFrom_eq_stopped.mp h
    obtain ⟨phases, hMem, hRun⟩ := hComes.mem
    obtain ⟨schedule, p, hEnds, hReports⟩ := (hRuns phases hMem).1 o hRun
    exact ⟨phases, p, mem_permutations.mp hMem, ⟨schedule, hEnds⟩, hReports⟩
  · obtain ⟨phases, hMem, hRun⟩ := (searchFrom_eq_none.mp h).mem
    exact ⟨phases, mem_permutations.mp hMem, fun p ⟨schedule, hEnds⟩ => (hRuns phases hMem).2 hRun schedule p hEnds⟩

end Sys2Proof.Machine
end

section
/-! SUPPORT. The family of spec/70_reset_and_hazards.md, first part: what each cell of a loaded image reads as (R170), and the
first step of a core without a program (R171). -/

namespace Sys2Proof.Machine

/-! ### The loaded image -/

theorem Memory.read_imageFrom (ws : List Int) (a k : Nat) : read (imageFrom a ws) (a + k) = ws.getD k unlisted := by
  induction ws generalizing a k with
  | nil => rfl
  | cons w ws ih =>
    cases k with
    | zero =>
      by_cases hw : w = unlisted
      · simpa [imageFrom, hw] using read_below fun c hc => imageFrom_ge c hc
      · simp [imageFrom, hw, read]
    | succ k =>
      have hRest : read (imageFrom (a + 1) ws) (a + (k + 1)) = ws.getD k unlisted := by
        rw [← ih (a + 1) k, Nat.add_right_comm, Nat.add_assoc]
      by_cases hw : w = unlisted
      · simpa [imageFrom, hw] using hRest
      · simpa [imageFrom, hw, read] using hRest

/-- Word `a` of the image at address `a`, zero beyond (R170). -/
theorem Memory.read_ofImage (image : List Int) (a : Nat) : read (ofImage image) a = image.getD a unlisted := by
  simpa [ofImage] using read_imageFrom image 0 a

/-- Settles O1: the cells are `Memory.read_ofImage`, and `resetPort` writes every other element named. -/
theorem resetPortGivesResetState : Obligations.ResetPortGivesResetState := by
  refine fun image s => ⟨rfl, rfl, rfl, rfl, rfl, fun a h => ?_, fun a h => ?_, rfl, rfl, rfl⟩
  · exact (Memory.read_ofImage image a).trans (by simp [h])
  · exact (Memory.read_ofImage image a).trans (by simp [h, Memory.unlisted])

/-! ### The first step without a program -/

/-- Whatever the limits, address 0 is within them. -/
theorem admitsAddr_zero (c : Config) : admitsAddr c 0 = true := by
  unfold admitsAddr
  split
  · rfl
  · simp

/-- Settles O2: cell 0 of the empty image reads 0, which no opcode has, and address 0 is never above `ADDR_MAX`. -/
theorem emptyImageFaultsAtOnce : Obligations.EmptyImageFaultsAtOnce := by
  intro c q
  have hZero : decodeHeader 0 = .error (.invalidOpcode 0) := decodeHeader_of_illegal_opcode (.inr (by decide))
  exact step_of_rejected (s := boot c [] q) rfl rfl (admitsAddr_zero c) hZero

end Sys2Proof.Machine
end

section
/-! SUPPORT. The family of spec/70_reset_and_hazards.md, second part: the program text (R172, 30_encoding.md R69). What the
loader reads off the digits of a number, then off one item, then how it cuts a text into the items it was made of. -/

namespace Sys2Proof.Machine

/-! ### Digits -/

theorem digitValue_digit : ∀ d < 10, digitValue (Char.ofNat (48 + d)) = some d := by decide

theorem isSome_digitValue_of_mem_digitsOf {fuel n : Nat} {c : Char} (h : c ∈ digitsOf fuel n) :
    (digitValue c).isSome = true := by
  induction fuel generalizing n with
  | zero => cases h
  | succ fuel ih =>
    simp only [digitsOf] at h
    split at h
    · next hn => simp [List.mem_singleton.mp h, digitValue_digit n hn]
    · rcases List.mem_append.mp h with h | h
      · exact ih h
      · simp [List.mem_singleton.mp h, digitValue_digit _ (Nat.mod_lt n (by omega : 10 > 0))]

/-- Reading the digits of `n` brings the loader to `n`, whatever follows them. -/
theorem readNumber_digitsOf_append {fuel n : Nat} (h : n < fuel) (cs : List Char) :
    readNumber (digitsOf fuel n ++ cs) = readTail cs n := by
  induction fuel generalizing n cs with
  | zero => omega
  | succ fuel ih =>
    by_cases hn : n < 10
    · simp [digitsOf, hn, readNumber, digitValue_digit n hn]
    · have hDigit := digitValue_digit (n % 10) (Nat.mod_lt n (by omega))
      have hValue : 10 * (n / 10) + n % 10 = n := Nat.div_add_mod n 10
      simp [digitsOf, hn, ih (by omega : n / 10 < fuel), readTail, hDigit, hValue]

theorem readNumber_digitsOf {fuel n : Nat} (h : n < fuel) : readNumber (digitsOf fuel n) = some n := by
  simpa [readTail] using readNumber_digitsOf_append h []

/-! ### Items -/

/-- The characters of an item: digits, and the `-` before them. -/
theorem eq_minus_or_digit_of_mem_renderItem {w : Int} {c : Char} (h : c ∈ renderItem w) :
    c = '-' ∨ (digitValue c).isSome = true := by
  cases w with
  | ofNat n => exact .inr (isSome_digitValue_of_mem_digitsOf h)
  | negSucc n => exact (List.mem_cons.mp h).imp_right isSome_digitValue_of_mem_digitsOf

/-- An item of digits alone has no spaces to skip and no sign. -/
theorem readItem_of_digits {cs : List Char} (h : ∀ c ∈ cs, (digitValue c).isSome = true) :
    readItem cs = (readNumber cs).map (fun n : Nat => (n : Int)) := by
  cases cs with
  | nil => rfl
  | cons c cs =>
    have hc : (digitValue c).isSome = true := h c (by simp)
    have hSpace : c ≠ ' ' := by rintro rfl; exact absurd hc (by decide)
    have hMinus : c ≠ '-' := by rintro rfl; exact absurd hc (by decide)
    simp [readItem, hSpace, hMinus]

theorem readItem_minus (cs : List Char) : readItem ('-' :: cs) = (readNumber cs).map (fun n : Nat => -(n : Int)) := rfl

theorem readItem_renderItem (w : Int) : readItem (renderItem w) = some w := by
  cases w with
  | ofNat n =>
    rw [renderItem, readItem_of_digits fun _ => isSome_digitValue_of_mem_digitsOf, readNumber_digitsOf (by omega)]
    rfl
  | negSucc n =>
    rw [renderItem, readItem_minus, readNumber_digitsOf (by omega)]
    rfl

theorem readItems_map_renderItem (image : List Int) : readItems (image.map renderItem) = some image := by
  induction image with
  | nil => rfl
  | cons w ws ih => simp [readItems, readItem_renderItem, ih]

/-! ### Commas -/

theorem comma_not_mem_renderItem (w : Int) : ',' ∉ renderItem w := fun h =>
  absurd (eq_minus_or_digit_of_mem_renderItem h) (by decide)

theorem splitItems_of_no_comma {cs : List Char} (h : ',' ∉ cs) : splitItems cs = [cs] := by
  induction cs with
  | nil => rfl
  | cons c cs ih =>
    obtain ⟨hc, hcs⟩ := not_or.mp (List.mem_cons.not.mp h)
    simp [splitItems, Ne.symm hc, ih hcs]

theorem splitItems_append_comma {x : List Char} (h : ',' ∉ x) (cs : List Char) :
    splitItems (x ++ ',' :: cs) = x :: splitItems cs := by
  induction x with
  | nil => rfl
  | cons c x ih =>
    obtain ⟨hc, hx⟩ := not_or.mp (List.mem_cons.not.mp h)
    simp [splitItems, Ne.symm hc, ih hx]

theorem splitItems_renderText {image : List Int} (h : image ≠ []) :
    splitItems (renderText image) = image.map renderItem := by
  induction image using renderText.induct with
  | case1 => contradiction
  | case2 w => exact splitItems_of_no_comma (comma_not_mem_renderItem w)
  | case3 w v ws ih =>
    rw [renderText, splitItems_append_comma (comma_not_mem_renderItem w), ih (by simp)]
    rfl

/-! ### The line ending -/

theorem eq_comma_or_mem_renderItem_of_mem_renderText {image : List Int} {c : Char} (h : c ∈ renderText image) :
    c = ',' ∨ ∃ w, c ∈ renderItem w := by
  induction image using renderText.induct with
  | case1 => cases h
  | case2 w => exact .inr ⟨w, h⟩
  | case3 w v ws ih =>
    rcases List.mem_append.mp h with h | h
    · exact .inr ⟨w, h⟩
    · exact (List.mem_cons.mp h).elim .inl ih

/-- A character that is no comma, no `-` and no digit, as those of a line ending, is not in the text of an image. -/
theorem not_mem_renderText {c : Char} (h : ¬(c = ',' ∨ c = '-' ∨ (digitValue c).isSome = true)) (image : List Int) :
    c ∉ renderText image := fun hMem => h <|
  (eq_comma_or_mem_renderItem_of_mem_renderText hMem).imp_right fun ⟨_, hItem⟩ => eq_minus_or_digit_of_mem_renderItem hItem

theorem stripLineEnd_of_no_lf {cs : List Char} (h : '\n' ∉ cs) : stripLineEnd cs = cs := by
  rw [← List.mem_reverse] at h
  unfold stripLineEnd
  split
  · next hr => simp [hr] at h
  · next hr => simp [hr] at h
  · rfl

theorem stripLineEnd_append_lf {cs : List Char} (h : '\r' ∉ cs) : stripLineEnd (cs ++ ['\n']) = cs := by
  rw [← List.mem_reverse] at h
  unfold stripLineEnd
  rw [List.reverse_concat]
  split
  · next hr => simp [(List.cons.inj hr).2] at h
  · next hr => rw [← (List.cons.inj hr).2, List.reverse_reverse]
  · next hNot => exact absurd rfl (hNot cs.reverse)

/-- Settles O49: the line ending goes, the commas give back the items, and each item reads as the word it was made of. -/
theorem programTextRoundTrip : Obligations.ProgramTextRoundTrip := by
  refine ⟨fun image hImage => ?_, rfl⟩
  have hItems : readItems (splitItems (renderText image)) = some image := by
    rw [splitItems_renderText hImage, readItems_map_renderItem]
  constructor
  · rw [parseText, stripLineEnd_of_no_lf (not_mem_renderText (by decide) image), hItems]
  · rw [parseText, stripLineEnd_append_lf (not_mem_renderText (by decide) image), hItems]

end Sys2Proof.Machine
end
